-- ==== Sys2Proof/Word.lean ====
section
/-! DEFINITION. The two widths of the machine (spec/00_scope.md R9): the byte and the 16-bit halfword.
Every value is unsigned; arithmetic on either wraps, which is what `BitVec` does. -/

namespace Sys2Proof

/-- `u8`: a byte, 0..255 (R9). A memory cell, an opcode, a register-operand byte. -/
abbrev Byte := BitVec 8

/-- `u16`: a halfword, 0..65535 (R9). A general register, SP, BP, IP, FLAGS, an immediate. -/
abbrev Word := BitVec 16

end Sys2Proof
end

