-- ==== Sys2Proof/Config.lean ====
section
/-! DEFINITION. What the spec leaves to an instance of the core (spec/00_scope.md R7): the memory
size and the memory contents before the first load. The size is a field of State
(`Machine.State.memSize`, log 1); its bounds and reference value stand here. -/

namespace Sys2Proof

/-- The reference value of MEM_SIZE (R7: "Reference value 1024"). -/
def Config.referenceMemSize : Nat := 1024

/-- The largest MEM_SIZE (R7: "range 1 ≤ MEM_SIZE ≤ 65536"): the reach of a 16-bit IP. -/
def Config.maxMemSize : Nat := 65536

/-- INIT_MEM (R7, R32, U3): the byte that address `a` holds before any load has written it. A free
value: no body, so nothing can be proved of it and every claim holds for every INIT_MEM
(DESIGN CHOICE of the form only, log 2; safe). -/
opaque Config.initMem (a : Nat) : Byte

end Sys2Proof
end

