-- ==== Sys2Proof/Machine/State.lean ====
section
/-! DEFINITION. The machine's state as plain data: the tuple of spec/10_state.md R33, the size
parameter of R7, and the two lists that hold the host interface (R118): what the host will ask next
and what it has been told. -/

namespace Sys2Proof.Machine

/-- The six general registers by name, in index order (R17: 0 AX, 1 BX, 2 CX, 3 DX, 4 SI, 5 DI). -/
inductive GReg where
  | ax | bx | cx | dx | si | di
deriving DecidableEq, Repr

/-- The general register file x[0..5] (R17): six 16-bit registers, none hardwired, none aliased. -/
structure RegFile where
  ax : Word
  bx : Word
  cx : Word
  dx : Word
  si : Word
  di : Word
deriving DecidableEq, Repr

/-- The state of the execute state machine (R28). -/
inductive Status where
  /-- Code 0: no run has started since the last reset. -/
  | idle
  /-- Code 1: a run is in progress. -/
  | running
  /-- Code 2: the last run ended with RET. -/
  | halted
  /-- Code 3: the last run ended with a fault. -/
  | faulted
deriving DecidableEq, Repr

/-- The kind field of the diagnostic record (R29, R93). -/
inductive FaultKind where
  /-- Code 0: no fault. -/
  | none
  /-- Code 1: a fetch at an address ≥ MEM_SIZE (R94). -/
  | memoryFault
  /-- Code 2: an opcode byte that is not in the table (R59, R90). -/
  | invalidOpcode
  /-- Code 3: a register-operand byte above 5 (R75, R95). -/
  | invalidRegister
deriving DecidableEq, Repr

/-- DIAG, the diagnostic of the last fault (R29). -/
structure Diag where
  kind : FaultKind
  opcode : Byte
  index : Byte
  pos : Word
deriving DecidableEq, Repr

/-- The registers the READ command can name (R118: x[0..5], SP, BP, IP, FLAGS, STATUS or DIAG). -/
inductive RegName where
  | x (r : GReg)
  | sp
  | bp
  | ip
  | flags
  | status
  | diag
deriving DecidableEq, Repr

/-- A command of the host (R118). -/
inductive Command where
  /-- RESET (R112). -/
  | reset
  /-- LOAD P (R114, R115). -/
  | load (program : List Byte)
  /-- EXECUTE (R70, R116). -/
  | execute
  /-- READ of one register (R119). -/
  | read (r : RegName)
deriving DecidableEq, Repr

/-- The value a READ returns: a 16-bit register, STATUS as its 2-bit code (R28), or DIAG as its four
fields (R29). -/
inductive ReadValue where
  | word (v : Word)
  | status (code : BitVec 2)
  | diag (kind : BitVec 2) (opcode : Byte) (index : Byte) (pos : Word)
deriving DecidableEq, Repr

/-- The result of a command as the host receives it (R118, column "result"). RESET has none. -/
inductive Reply where
  /-- LOAD succeeded (R114). -/
  | loadOk
  /-- LOAD was rejected (R115). -/
  | loadTooLarge
  /-- EXECUTE completed, with the STATUS value that is its result (R116). -/
  | ended (status : Status)
  /-- READ's value (R119). -/
  | value (v : ReadValue)
deriving DecidableEq, Repr

/-- The memory M (R30, R41) as (address, byte) pairs: the bytes a load has written. An address that
is not listed holds INIT_MEM's byte (`byteAt`, log 2). -/
abbrev Memory := List Host.Cell

/-- The whole state. -/
structure State where
  /-- MEM_SIZE (R7, R8): how many bytes of memory this instance of the core has. No step writes it. -/
  memSize : Nat
  /-- M (R30): the bytes loaded since power-on, in canonical form. -/
  mem : Memory
  /-- x[0..5] (R17). -/
  regs : RegFile
  /-- SP (R19). -/
  sp : Word
  /-- BP (R20). -/
  bp : Word
  /-- IP, the program counter (R21). -/
  ip : Word
  /-- FLAGS (R24): bit 0 ZF, bit 1 NE, bits 15:2 reserved. -/
  flags : Word
  /-- STATUS (R28). -/
  status : Status
  /-- DIAG (R29). -/
  diag : Diag
  /-- The model's own: the commands the host has yet to have accepted, oldest first (R118; log 4). -/
  pending : List Command
  /-- The model's own: the results handed to the host so far, oldest first (R118; log 5). -/
  replies : List Reply
deriving DecidableEq, Repr

/-- Reasons a step can stop the machine. There is NONE, and the type says so: each fault of this
hardware (MemoryFault, InvalidOpcode, InvalidRegister) has its entry described by R97 and is a next
state with STATUS = FAULTED (log 9; safe: nothing stops that the spec lets go on). -/
inductive Fault where
deriving DecidableEq, Repr

/-- Reasons a step can be refused. -/
inductive Refusal where
  /-- Raised only by an arm of `exec` whose instruction has no meaning yet (safe). Every instruction
  has one, so nothing raises it. -/
  | notModelled (mnemonic : String)
deriving DecidableEq, Repr

/-- What a step or a meaning answers. -/
abbrev Result := Host.Outcome State Fault Refusal

/-- The machine after RESET (R31, R112): the reference instance (MEM_SIZE 1024, so SP is 0x03FF), no
byte loaded, no command pending, nothing answered. The last four are the model's (logs 1, 2, 4, 5). -/
def State.reset : State where
  memSize := Config.referenceMemSize
  mem := []
  regs := { ax := 0, bx := 0, cx := 0, dx := 0, si := 0, di := 0 }
  sp := 0x03FF
  bp := 0
  ip := 0
  flags := 0
  status := .idle
  diag := { kind := .none, opcode := 0, index := 0, pos := 0 }
  pending := []
  replies := []

end Sys2Proof.Machine
end

