-- ==== Sys2Proof/Machine/Flags.lean ====
section
/-! DEFINITION. The ALU (spec/00_scope.md R13: PASS, ADD, SUB, EQUAL) and the one flag computation of
the ISA, TEST's (spec/42_reg_reg_ops.md R86). -/

namespace Sys2Proof.Machine

/-- PASS: MOV_IMM and MOV_REG hand the value on unchanged (R81, R85, R87). -/
def aluPass (v : Word) : Word := v

/-- ADD modulo 2^16 (R82, R84): no carry, no overflow, no flag. -/
def aluAdd (x y : Word) : Word := x + y

/-- SUB modulo 2^16 (R83, R84): wrapping, never negative, no flag. -/
def aluSub (x y : Word) : Word := x - y

/-- EQUAL: a comparison of all 16 bits (R86, R87); it does not subtract. -/
def aluEqual (x y : Word) : Bool := x == y

/-- FLAGS bit 0, ZF (R24). -/
def flagZF : Word := 0x0001

/-- FLAGS bit 1, NE (R24). -/
def flagNE : Word := 0x0002

/-- FLAGS bits 15:2, reserved (R24). -/
def flagsReserved : Word := 0xFFFC

/-- The bit TEST ORs in: ZF when the registers are equal, NE when they differ (R86). -/
def testBit (x y : Word) : Word := if aluEqual x y then flagZF else flagNE

/-- FLAGS after a TEST of `x` and `y`: one bit ORed in, none cleared (R26, R86). -/
def testFlags (x y flags : Word) : Word := flags ||| testBit x y

end Sys2Proof.Machine
end

