-- ==== Sys2Proof/Machine/Ops.lean ====
section
/-! DEFINITION. The named operations over memory, registers, FLAGS and the execute state machine, and
taking a fault (`raise`, spec/60_exceptions.md R97). -/

namespace Sys2Proof.Machine

/-! ## Memory (R30, R41 to R46) -/

/-- The canonical form: addresses strictly rising. An unlisted address reads as no loaded byte at all
(`Memory.read` answers none), so no entry can equal what an unlisted address reads as, and memories
that read alike are equal lists (`Laws.Memory.eq_of_read_eq`, log 2). -/
abbrev Memory.wf (m : Memory) : Prop := m.Pairwise (fun c d => c.1 < d.1)

/-- Every listed byte is a byte of a memory of `size` bytes (R41: "addressed 0..size-1"). -/
abbrev Memory.within (size : Nat) (m : Memory) : Prop := ∀ c ∈ m, c.1 < size

/-- The byte loaded at address `a`, none where no load has written it. -/
def Memory.read : Memory → Nat → Option Byte
  | [], _ => none
  | c :: cs, a => if c.1 = a then some c.2 else Memory.read cs a

/-- `MemWrite(a, 1, b)` (R11): the byte at `a` becomes `b`, in canonical form. -/
def Memory.write : Memory → Nat → Byte → Memory
  | [], a, b => [(a, b)]
  | c :: cs, a, b =>
    if a < c.1 then (a, b) :: c :: cs
    else if a = c.1 then (a, b) :: cs
    else c :: Memory.write cs a b

/-- The load loop of R114 from address `a` on: M[a + k] <- P[k]. -/
def Memory.store : Memory → Nat → List Byte → Memory
  | m, _, [] => m
  | m, a, b :: bs => Memory.store (Memory.write m a b) (a + 1) bs

/-- M[a]: the loaded byte, else INIT_MEM's byte (R32, R114). -/
def State.byteAt (s : State) (a : Nat) : Byte := (Memory.read s.mem a).getD (Config.initMem a)

/-- The bounds check of the fetch unit (R44): the address names a byte of memory. -/
abbrev State.inMemory (s : State) (a : Word) : Prop := a.toNat < s.memSize

/-! ## Registers -/

/-- x[r] (R17). -/
def RegFile.get (f : RegFile) : GReg → Word
  | .ax => f.ax
  | .bx => f.bx
  | .cx => f.cx
  | .dx => f.dx
  | .si => f.si
  | .di => f.di

/-- x[r] <- v (R17): no other register changes. -/
def RegFile.set (f : RegFile) (r : GReg) (v : Word) : RegFile :=
  match r with
  | .ax => { f with ax := v }
  | .bx => { f with bx := v }
  | .cx => { f with cx := v }
  | .dx => { f with dx := v }
  | .si => { f with si := v }
  | .di => { f with di := v }

/-- The state's x[r]. -/
def State.reg (s : State) (r : GReg) : Word := s.regs.get r

/-- x[r] <- v. -/
def writeReg (r : GReg) (v : Word) (s : State) : State := { s with regs := s.regs.set r v }

/-- FLAGS <- v. -/
def writeFlags (v : Word) (s : State) : State := { s with flags := v }

/-- IP <- (IP + n) mod 2^16, the effect of `n` successful fetches (R21, R44). -/
def advance (n : Nat) (s : State) : State := { s with ip := s.ip + BitVec.ofNat 16 n }

/-! ## The execute state machine (R70, R71) and faults (R97) -/

/-- DIAG with no fault recorded (R29). -/
def Diag.clear : Diag := { kind := .none, opcode := 0, index := 0, pos := 0 }

/-- Fault entry, `raise F(info)` (R97): STATUS and DIAG are written, nothing else changes, and the run
is over. There is no handler and no return (R100); the host goes on with a new command, `enterRun`
among them (R80). -/
def raise (kind : FaultKind) (opcode index : Byte) (pos : Word) (s : State) : State :=
  { s with
    status := .faulted
    diag := { kind := kind, opcode := opcode, index := index, pos := pos } }

/-- RUNNING to HALTED, on RET (R71, R88). -/
def haltRun (s : State) : State := { s with status := .halted }

/-- Run entry (R70): STATUS <- RUNNING and DIAG cleared, nothing else. After a fault this is the only
way on within the same IP, registers and memory (R80, R100). -/
def enterRun (s : State) : State := { s with status := .running, diag := Diag.clear }

/-- Hand a result to the host (R118; log 5). -/
def deliver (r : Reply) (s : State) : State := { s with replies := s.replies ++ [r] }

/-! ## The fetch unit (R44) -/

/-- `Fetch()`: the byte at IP and the state with IP advanced, or the state a MemoryFault leaves, in
which IP is not advanced. `curOp` is the opcode latch of R72, recorded in DIAG. -/
def fetch (curOp : Byte) (s : State) : Except State (Byte × State) :=
  if s.inMemory s.ip then .ok (s.byteAt s.ip.toNat, advance 1 s)
  else .error (raise .memoryFault curOp 0 s.ip s)

/-- `n` operand fetches in order, each with its own bounds check (R73). -/
def fetchOperands (curOp : Byte) : Nat → State → Except State (List Byte × State)
  | 0, s => .ok ([], s)
  | n + 1, s =>
    match fetch curOp s with
    | .error f => .error f
    | .ok (b, s₁) =>
      match fetchOperands curOp n s₁ with
      | .error f => .error f
      | .ok (bs, s₂) => .ok (b :: bs, s₂)

end Sys2Proof.Machine
end

