-- ==== Sys2Proof/Machine/Control.lean ====
section
/-! DEFINITION. Control (spec/43_control.md): RET, the only instruction that acts on the execute state
machine (R91). -/

namespace Sys2Proof.Machine

/-- RET (R88): STATUS <- HALTED. Nothing is popped; SP, the registers, FLAGS and DIAG stay. -/
def execRet (s : State) : Result := .next (haltRun s)

end Sys2Proof.Machine
end

