-- ==== Sys2Proof/Syntax.lean ====
section
/-! DEFINITION. The closed instruction set (spec/30_encoding.md R58): one constructor per row of the
opcode table, its operands as the decoder hands them on. A register operand is the WHOLE operand
byte (R60), valid or not: an instruction that names no register is an instruction that raises
InvalidRegister (R75), so it must be expressible (log 10). -/

namespace Sys2Proof

/-- The six instructions of R58, operands in fetch order. -/
inductive Instr where
  /-- `B8 r lo hi`, R81. -/
  | movImm (r : Byte) (imm : Word)
  /-- `83 r lo hi`, R82. -/
  | add (r : Byte) (imm : Word)
  /-- `84 r lo hi`, R83. -/
  | sub (r : Byte) (imm : Word)
  /-- `89 d s`, R85: destination first, source second. -/
  | movReg (d s : Byte)
  /-- `85 a b`, R86. -/
  | test (a b : Byte)
  /-- `C3`, R88. -/
  | ret
deriving DecidableEq, Repr

end Sys2Proof
end

