-- ==== Sys2Proof/Decode.lean ====
section
/-! DEFINITION. Decoding and encoding, from the formats and the opcode map of spec/30_encoding.md
(R56 to R62). Decoding is total: it answers an instruction and the bytes after it, or an error that
says what is wrong. The opcode values stand in this one file and nowhere else (91_not_in_source.md G2
asks for one place; log 14). -/

namespace Sys2Proof

/-! ## Opcode map (R58) -/

/-- 1011_1000 (R58). -/
def opMovImm : Byte := 0xB8
/-- 1000_0011 (R58). -/
def opAdd : Byte := 0x83
/-- 1000_0100 (R58). -/
def opSub : Byte := 0x84
/-- 1000_1001 (R58). -/
def opMovReg : Byte := 0x89
/-- 1000_0101 (R58). -/
def opTest : Byte := 0x85
/-- 1100_0011 (R58). -/
def opRet : Byte := 0xC3

/-- The opcode byte of an instruction. -/
def opcodeOf : Instr → Byte
  | .movImm _ _ => opMovImm
  | .add _ _ => opAdd
  | .sub _ _ => opSub
  | .movReg _ _ => opMovReg
  | .test _ _ => opTest
  | .ret => opRet

/-- How many operand bytes follow an opcode (R57). An invalid opcode takes none. -/
def operandCount (op : Byte) : Nat :=
  if op = opMovImm ∨ op = opAdd ∨ op = opSub then 3
  else if op = opMovReg ∨ op = opTest then 2
  else 0

/-! ## The immediate (R61, R45) -/

/-- The immediate of the two bytes fetched low first: `zext_16(lo) | (zext_16(hi) << 8)` (R61). -/
def imm16 (lo hi : Byte) : Word := lo.setWidth 16 ||| (hi.setWidth 16 <<< 8)

/-- Bits 7:0 of an immediate, its byte 2 (R56, format RI). -/
def immLo (imm : Word) : Byte := imm.setWidth 8

/-- Bits 15:8 of an immediate, its byte 3 (R56, format RI). -/
def immHi (imm : Word) : Byte := (imm >>> 8).setWidth 8

/-! ## Decoding -/

/-- Why a byte sequence is not (the start of) an instruction. -/
inductive DecodeError where
  /-- No byte at all. -/
  | empty
  /-- The first byte is one of the 250 invalid opcodes of R59. -/
  | invalidOpcode (op : Byte)
  /-- The opcode is valid and fewer operand bytes follow than R57 gives it. -/
  | truncated (op : Byte)
deriving DecidableEq, Repr

/-- What decoding answers: the instruction and the bytes after it, or an error. -/
inductive Decoded where
  | ok (i : Instr) (rest : List Byte)
  | error (e : DecodeError)
deriving DecidableEq, Repr

/-- Format RI (R56): register operand, imm_lo, imm_hi. -/
def decodeRI (mk : Byte → Word → Instr) (op : Byte) : List Byte → Decoded
  | r :: lo :: hi :: rest => .ok (mk r (imm16 lo hi)) rest
  | _ => .error (.truncated op)

/-- Format RR (R56): first register operand, second register operand. -/
def decodeRR (mk : Byte → Byte → Instr) (op : Byte) : List Byte → Decoded
  | x :: y :: rest => .ok (mk x y) rest
  | _ => .error (.truncated op)

/-- The decoder: all eight opcode bits are matched exactly (R58), every other opcode byte is invalid
(R59). -/
def decode : List Byte → Decoded
  | [] => .error .empty
  | op :: rest =>
    if op = opMovImm then decodeRI .movImm op rest
    else if op = opAdd then decodeRI .add op rest
    else if op = opSub then decodeRI .sub op rest
    else if op = opMovReg then decodeRR .movReg op rest
    else if op = opTest then decodeRR .test op rest
    else if op = opRet then .ok .ret rest
    else .error (.invalidOpcode op)

/-! ## Encoding -/

/-- The operand bytes of an instruction in fetch order (R58, R56). -/
def operandBytes : Instr → List Byte
  | .movImm r imm => [r, immLo imm, immHi imm]
  | .add r imm => [r, immLo imm, immHi imm]
  | .sub r imm => [r, immLo imm, immHi imm]
  | .movReg d s => [d, s]
  | .test a b => [a, b]
  | .ret => []

/-- The bytes of an instruction, lowest address first (R56). -/
def encode (i : Instr) : List Byte := opcodeOf i :: operandBytes i

/-! ## Words as the opcode table numbers them -/

/-- The four bytes of the longest instruction (R56, format RI) read from a word whose bit 0 is the
least significant bit of byte 0 (R56's word view W); bits from `nbits` up count as 0. -/
def tableBytes (nbits w : Nat) : List Byte :=
  let v := w % 2 ^ nbits
  [BitVec.ofNat 8 v, BitVec.ofNat 8 (v / 2 ^ 8), BitVec.ofNat 8 (v / 2 ^ 16), BitVec.ofNat 8 (v / 2 ^ 24)]

/-- The instruction the decoder reads from a table word, none where it refuses. -/
def decodeTableWord (nbits w : Nat) : Option Instr :=
  match decode (tableBytes nbits w) with
  | .ok i _ => some i
  | .error _ => none

end Sys2Proof
end

