-- ==== Sys2Proof/Machine/Operands.lean ====
section
/-! DEFINITION. The two operand forms (spec/43_control.md R92): a register-operand byte and a 16-bit
immediate. The immediate is assembled by the decoder (`imm16`, R61) and needs no check; the register
byte is checked here (R60, R75). -/

namespace Sys2Proof.Machine

/-- The general register a register-operand byte names: all eight bits count, and only 0..5 name one
(R60). -/
def regOfByte (v : Byte) : Option GReg :=
  match v.toNat with
  | 0 => some .ax
  | 1 => some .bx
  | 2 => some .cx
  | 3 => some .dx
  | 4 => some .si
  | 5 => some .di
  | _ => none

/-- `CheckReg(i)` (R75): the register named, or the state an InvalidRegister leaves. It runs after all
operand bytes are fetched, so pos is IP as it stands. -/
def checkReg (curOp i : Byte) (s : State) : Except State GReg :=
  match regOfByte i with
  | some r => .ok r
  | none => .error (raise .invalidRegister curOp i s.ip s)

end Sys2Proof.Machine
end

