-- ==== Sys2Proof/Machine/RegImm.lean ====
section
/-! DEFINITION. Register–immediate instructions (spec/41_reg_imm_ops.md). Each meaning is the part of
R72 after the operand fetches: IP already stands past the instruction. -/

namespace Sys2Proof.Machine

/-- The shape R72 gives format RI: check the register operand, then write x[r] with what the ALU makes
of its old value. -/
def onReg (op r : Byte) (alu : Word → Word) (s : State) : Result :=
  match checkReg op r s with
  | .error f => .next f
  | .ok k => .next (writeReg k (alu (s.reg k)) s)

/-- MOV_IMM (R81): x[r] <- imm. -/
def execMovImm (r : Byte) (imm : Word) (s : State) : Result :=
  onReg opMovImm r (fun _ => aluPass imm) s

/-- ADD (R82): x[r] <- (x[r] + imm) mod 2^16. -/
def execAdd (r : Byte) (imm : Word) (s : State) : Result :=
  onReg opAdd r (fun v => aluAdd v imm) s

/-- SUB (R83): x[r] <- (x[r] - imm) mod 2^16. -/
def execSub (r : Byte) (imm : Word) (s : State) : Result :=
  onReg opSub r (fun v => aluSub v imm) s

end Sys2Proof.Machine
end

