-- ==== Sys2Proof/Machine/RegReg.lean ====
section
/-! DEFINITION. Register–register instructions (spec/42_reg_reg_ops.md). Each meaning is the part of
R72 after the operand fetches: IP already stands past the instruction. -/

namespace Sys2Proof.Machine

/-- The shape R72 gives format RR: check the first register operand, then the second, then act. -/
def onRegs (op i₁ i₂ : Byte) (act : GReg → GReg → State) (s : State) : Result :=
  match checkReg op i₁ s with
  | .error f => .next f
  | .ok j =>
    match checkReg op i₂ s with
    | .error f => .next f
    | .ok k => .next (act j k)

/-- MOV_REG (R85): x[d] <- x[s]. -/
def execMovReg (d src : Byte) (s : State) : Result :=
  onRegs opMovReg d src (fun j k => writeReg j (aluPass (s.reg k)) s) s

/-- TEST (R86): FLAGS gains ZF when x[a] = x[b], NE when they differ, and loses nothing. -/
def execTest (a b : Byte) (s : State) : Result :=
  onRegs opTest a b (fun j k => writeFlags (testFlags (s.reg j) (s.reg k) s.flags) s) s

end Sys2Proof.Machine
end

