-- ==== Sys2Proof/Machine/Dispatch.lean ====
section
/-! DEFINITION. The dispatch of R72: one arm per row of the opcode table. -/

namespace Sys2Proof.Machine

def exec (i : Instr) (s : State) : Host.Outcome State Fault Refusal :=
  match i with
  | .movImm r imm => Sys2Proof.Machine.execMovImm r imm s
  | .add r imm => Sys2Proof.Machine.execAdd r imm s
  | .sub r imm => Sys2Proof.Machine.execSub r imm s
  | .movReg d src => Sys2Proof.Machine.execMovReg d src s
  | .test a b => Sys2Proof.Machine.execTest a b s
  | .ret => Sys2Proof.Machine.execRet s

end Sys2Proof.Machine
end

