-- ==== Sys2Proof/Machine/HostCommands.lean ====
section
/-! DEFINITION. The host's commands (spec/70_reset_and_hazards.md R112 to R119), each as the state
it leaves. -/

namespace Sys2Proof.Machine

/-- The top of memory as SP holds it, (MEM_SIZE - 1) mod 2^16 (R19). -/
def topOfMemory (size : Nat) : Word := BitVec.ofNat 16 (size - 1)

/-- RESET (R112, R31): every register, FLAGS, STATUS and DIAG; M stays. -/
def resetCommand (s : State) : State :=
  { s with
    regs := { ax := 0, bx := 0, cx := 0, dx := 0, si := 0, di := 0 }
    sp := topOfMemory s.memSize
    bp := 0
    ip := 0
    flags := 0
    status := .idle
    diag := Diag.clear }

/-- The successful half of LOAD (R114): M[k] <- P[k], IP <- 0. -/
def loadProgram (p : List Byte) (s : State) : State :=
  { s with mem := Memory.store s.mem 0 p, ip := 0 }

/-- LOAD P (R114, R115): it succeeds when P fits, and changes nothing when it does not. -/
def loadCommand (p : List Byte) (s : State) : State :=
  if p.length ≤ s.memSize then deliver .loadOk (loadProgram p s)
  else deliver .loadTooLarge s

/-- STATUS as its 2-bit code (R28). -/
def Status.code : Status → BitVec 2
  | .idle => 0
  | .running => 1
  | .halted => 2
  | .faulted => 3

/-- DIAG.kind as its 2-bit code (R29, R93). -/
def FaultKind.code : FaultKind → BitVec 2
  | .none => 0
  | .memoryFault => 1
  | .invalidOpcode => 2
  | .invalidRegister => 3

/-- The value READ returns (R119). -/
def readValue (r : RegName) (s : State) : ReadValue :=
  match r with
  | .x k => .word (s.reg k)
  | .sp => .word s.sp
  | .bp => .word s.bp
  | .ip => .word s.ip
  | .flags => .word s.flags
  | .status => .status s.status.code
  | .diag => .diag s.diag.kind.code s.diag.opcode s.diag.index s.diag.pos

/-- READ (R119): the value is handed over, no state changes. -/
def readCommand (r : RegName) (s : State) : State := deliver (.value (readValue r s)) s

/-- Carry out one command of the host (R118). EXECUTE's own result follows when its run ends. -/
def accept (c : Command) (s : State) : State :=
  match c with
  | .reset => resetCommand s
  | .load p => loadCommand p s
  | .execute => enterRun s
  | .read r => readCommand r s

/-- The host's turn, while no run is in progress (R118): the oldest pending command is accepted; with
none pending the core does nothing and all state survives (R108; log 7). -/
def hostTurn (s : State) : State :=
  match s.pending with
  | [] => s
  | c :: cs => accept c { s with pending := cs }

end Sys2Proof.Machine
end

