-- ==== Sys2Proof/Machine/Cycle.lean ====
section
/-! DEFINITION. The instruction cycle, `Step()` of spec/40_execute_cycle.md R72, and one transition of
the whole machine: an instruction while a run is in progress, a host command otherwise. -/

namespace Sys2Proof.Machine

/-- `Step()` (R72): fetch the opcode, fetch as many operand bytes as it takes (R57), decode, act. An
opcode the decoder refuses has taken no operand byte and raises InvalidOpcode with pos = IP, one past
the opcode (R90). -/
def instructionCycle (s : State) : Result :=
  match fetch 0 s with
  | .error f => .next f
  | .ok (op, s₁) =>
    match fetchOperands op (operandCount op) s₁ with
    | .error f => .next f
    | .ok (bs, s₂) =>
      match decode (op :: bs) with
      | .ok i _ => exec i s₂
      | .error _ => .next (raise .invalidOpcode op 0 s₂.ip s₂)

/-- What a run's end adds to an instruction's outcome: when STATUS is no longer RUNNING the EXECUTE
command completes and its result, that STATUS, goes to the host (R116; log 5). -/
def completeExecute : Result → Result
  | .next t => if t.status = .running then .next t else .next (deliver (.ended t.status) t)
  | .fault r => .fault r
  | .refused r => .refused r

/-- One transition: the core's while STATUS = RUNNING (R71), else the host's (R118). -/
def transition (s : State) : Result :=
  if s.status = .running then completeExecute (instructionCycle s) else .next (hostTurn s)

/-- Where `State.withFetchWord` puts an instruction: at IP, or at address 0 (where LOAD puts a program,
R114) when the longest instruction would not fit at IP (log 8). -/
def placementAddress (s : State) : Nat := if s.ip.toNat + 4 ≤ s.memSize then s.ip.toNat else 0

/-- Place the bytes where the next fetch reads and enter a run: the LOAD and the EXECUTE that R120
gives for starting a program, without the host's queue (log 8). -/
def placeInstruction (bytes : List Byte) (s : State) : State :=
  let a := placementAddress s
  enterRun
    { s with
      mem := Memory.store s.mem a (bytes.take (s.memSize - a))
      ip := BitVec.ofNat 16 a }

end Sys2Proof.Machine
end

