-- ==== Sys2Proof/Machine/Step.lean ====
section
/-! DEFINITION. The step of the machine, and a state whose next step runs a given instruction. -/

namespace Sys2Proof.Machine

/-- One step: one whole instruction while a run is in progress (R74), one host command otherwise. -/
def step (s : State) : Host.Outcome State Fault Refusal := transition s

/-- The state whose next step fetches and runs the instruction of a table word (log 8). -/
def State.withFetchWord (s : State) (nbits w : Nat) : State := placeInstruction (tableBytes nbits w) s

end Sys2Proof.Machine
end

