-- ==== Sys2Proof/WellFormed.lean ====
section
/-! DEFINITION. Which instructions name registers the machine has: every register-operand byte is in
{0..5} (spec/30_encoding.md R60). An ill-formed instruction still decodes and still executes: it
raises InvalidRegister (R75). -/

namespace Sys2Proof

/-- A register-operand byte that names a general register (R60: "For v in {0..5} it names x[v]"). -/
def validRegByte (v : Byte) : Bool := v.toNat ≤ 5

/-- Every register operand of the instruction names a general register. -/
def Instr.wellFormed : Instr → Bool
  | .movImm r _ => validRegByte r
  | .add r _ => validRegByte r
  | .sub r _ => validRegByte r
  | .movReg d s => validRegByte d && validRegByte s
  | .test a b => validRegByte a && validRegByte b
  | .ret => true

end Sys2Proof
end

