-- ==== Sys2Proof/Safety.lean ====
section
/-! DEFINITION. The terms in which claims speak of the machine: bytes in memory at an address, what an
instruction leaves alone, and the invariant every state after a RESET keeps. -/

namespace Sys2Proof.Machine

/-- The bytes `bs` stand in memory from address `a` on, where the fetch unit would read them: addresses
wrap modulo 2^16 as IP does (R44), and each lies inside memory. -/
def State.holds (s : State) : Word → List Byte → Prop
  | _, [] => True
  | a, b :: bs => s.inMemory a ∧ s.byteAt a.toNat = b ∧ State.holds s (a + 1) bs

/-- MEM_SIZE and every byte of memory are as before (R50). -/
def KeepsMemory (s t : State) : Prop := t.memSize = s.memSize ∧ ∀ a, t.byteAt a = s.byteAt a

/-- SP and BP are as before (R19, R20). -/
def KeepsStackRegs (s t : State) : Prop := t.sp = s.sp ∧ t.bp = s.bp

/-- STATUS and DIAG are as before (R28, R29). -/
def KeepsRunState (s t : State) : Prop := t.status = s.status ∧ t.diag = s.diag

/-- The model's host lists are as before. -/
def KeepsHostLists (s t : State) : Prop := t.pending = s.pending ∧ t.replies = s.replies

/-- DIAG holds a record R29 and R96 can leave: all zero with no fault; opcode 0 or a table opcode for a
MemoryFault; an opcode outside the table for an InvalidOpcode; the opcode of an instruction with
register operands and an index above 5 for an InvalidRegister. -/
def Diag.lawful (d : Diag) : Bool :=
  match d.kind with
  | .none => d.opcode == 0 && d.index == 0 && d.pos == 0
  | .memoryFault => (d.opcode == 0 || 0 < operandCount d.opcode) && d.index == 0
  | .invalidOpcode => operandCount d.opcode == 0 && d.opcode != opRet && d.index == 0
  | .invalidRegister => 0 < operandCount d.opcode && 5 < d.index.toNat

/-- The invariant of every state after a RESET:
MEM_SIZE is in its range (R7); memory is canonical and inside MEM_SIZE (R41); IP is at most MEM_SIZE
(R23); SP and BP are as RESET left them (R19, R20); FLAGS bits 15:2 are 0 (R24); a fault is recorded
exactly while STATUS is FAULTED (R28, R29); DIAG holds a record R96 can leave; and a MemoryFault's
position is outside memory (R96). -/
def State.Inv (s : State) : Prop :=
  1 ≤ s.memSize ∧ s.memSize ≤ Config.maxMemSize ∧
  Memory.wf s.mem ∧ Memory.within s.memSize s.mem ∧
  s.ip.toNat ≤ s.memSize ∧
  s.sp = topOfMemory s.memSize ∧ s.bp = 0 ∧
  s.flags &&& flagsReserved = 0 ∧
  (s.status = .faulted ↔ s.diag.kind ≠ .none) ∧
  s.diag.lawful = true ∧
  (s.diag.kind = .memoryFault → s.memSize ≤ s.diag.pos.toNat)

/-- A run is over (R122: STATUS ∈ {HALTED, FAULTED}). -/
def State.ended (s : State) : Prop := s.status = .halted ∨ s.status = .faulted

/-- `n` steps lead from `s` to `t`. -/
def Steps (n : Nat) (s t : State) : Prop := Host.Core.run Sys2Proof.core n s = .next t

end Sys2Proof.Machine
end

