-- ==== Sys2Proof/Certificates/Slice0/Obligations.lean ====
section
/-! DEFINITION. The statements about the model, each a `def Obligations.<Name> : Prop`, and the shared
predicates they are written with (namespace `Sys2Proof.Claims`). Rule numbers are those of spec/.
Where a conclusion says "for some replies", the list of results handed to the host (the model's own
field, log 5) is left open there; `RunEndDeliversStatus` says what it is. -/

open Sys2Proof Sys2Proof.Machine

/-! ## Shared predicates -/

/-- `s` is about to run an instruction with opcode `op`: a run is in progress and the byte at IP is
inside memory and is `op`. -/
def Sys2Proof.Claims.AtOpcode (s : State) (op : Byte) : Prop :=
  s.status = .running ∧ s.inMemory s.ip ∧ s.byteAt s.ip.toNat = op

/-- The next step of `s` raises a fault with this DIAG, `n` fetches having succeeded: STATUS and DIAG
are written, IP stands past the bytes fetched, and nothing else of the spec's state changes. -/
def Sys2Proof.Claims.StepFaults (s : State) (n : Nat) (kind : FaultKind) (op index : Byte) : Prop :=
  ∃ replies, step s = .next
    { s with
      ip := s.ip + BitVec.ofNat 16 n
      status := .faulted
      diag := { kind := kind, opcode := op, index := index, pos := s.ip + BitVec.ofNat 16 n }
      replies := replies }

/-- MemoryFault at each of the `n` operand fetches (R81, R85, R86: "MemoryFault(pos = A + k) if
A + k ≥ MEM_SIZE"), the earlier ones having succeeded. -/
def Sys2Proof.Claims.OperandFetchFaults (s : State) (op : Byte) (n : Nat) : Prop :=
  ∀ k, 1 ≤ k → k ≤ n →
    (∀ j, 1 ≤ j → j < k → s.inMemory (s.ip + BitVec.ofNat 16 j)) →
    ¬ s.inMemory (s.ip + BitVec.ofNat 16 k) →
    Sys2Proof.Claims.StepFaults s k .memoryFault op 0

/-- A whole register–immediate rule (R81, R82, R83) for opcode `op` and ALU function `alu`: the faults
of the operand fetches, InvalidRegister, and otherwise the one register written and IP at A + 4. -/
def Sys2Proof.Claims.RegImmRule (op : Byte) (alu : Word → Word → Word) : Prop :=
  ∀ s, Sys2Proof.Claims.AtOpcode s op →
    Sys2Proof.Claims.OperandFetchFaults s op 3 ∧
    ∀ r lo hi : Byte, s.holds (s.ip + 1) [r, lo, hi] →
      (5 < r.toNat → Sys2Proof.Claims.StepFaults s 4 .invalidRegister op r) ∧
      (∀ k, regOfByte r = some k → ∀ imm : Word, imm.toNat = lo.toNat + 256 * hi.toNat →
        step s = .next { s with ip := s.ip + 4, regs := s.regs.set k (alu (s.reg k) imm) })

/-- A whole register–register rule (R85, R86) for opcode `op`, whose effect on valid operands is `act`:
the faults of the operand fetches, InvalidRegister for the first operand, else for the second, and
otherwise the effect with IP at A + 3. -/
def Sys2Proof.Claims.RegRegRule (op : Byte) (act : State → GReg → GReg → State) : Prop :=
  ∀ s, Sys2Proof.Claims.AtOpcode s op →
    Sys2Proof.Claims.OperandFetchFaults s op 2 ∧
    ∀ i₁ i₂ : Byte, s.holds (s.ip + 1) [i₁, i₂] →
      (5 < i₁.toNat → Sys2Proof.Claims.StepFaults s 3 .invalidRegister op i₁) ∧
      (i₁.toNat ≤ 5 → 5 < i₂.toNat → Sys2Proof.Claims.StepFaults s 3 .invalidRegister op i₂) ∧
      (∀ j k, regOfByte i₁ = some j → regOfByte i₂ = some k →
        step s = .next { act s j k with ip := s.ip + 3 })

/-- What the register instructions leave alone besides registers and FLAGS (their frame): IP as the
fetches left it, SP, BP, STATUS, DIAG, every byte of memory and the model's host lists. -/
def Sys2Proof.Claims.Frame (s t : State) : Prop :=
  t.ip = s.ip ∧ KeepsStackRegs s t ∧ KeepsRunState s t ∧ KeepsMemory s t ∧ KeepsHostLists s t

/-- `exec` on a register–immediate instruction with a valid operand completes with x[r] as `post` says
(of the old x[r], the immediate and the new x[r]) and everything else as before. -/
def Sys2Proof.Claims.RegImmEffect (mk : Byte → Word → Instr) (post : Nat → Nat → Nat → Prop) : Prop :=
  ∀ (s : State) (r : Byte) (imm : Word) (k : GReg), regOfByte r = some k →
    ∃ t, exec (mk r imm) s = .next t ∧
      post (s.reg k).toNat imm.toNat (t.reg k).toNat ∧
      (∀ j, j ≠ k → t.reg j = s.reg j) ∧
      t.flags = s.flags ∧
      Sys2Proof.Claims.Frame s t

/-- The oldest pending command is `c` and the host has the turn, so the next step accepts `c`. -/
def Sys2Proof.Claims.Accepts (s : State) (c : Command) : Prop :=
  s.status ≠ .running ∧ s.pending.head? = some c

/-- An invalid opcode value, by the ranges R59 lists. -/
def Sys2Proof.Claims.InvalidOpcode (n : Nat) : Prop :=
  n ≤ 0x82 ∨ (0x86 ≤ n ∧ n ≤ 0x88) ∨ (0x8A ≤ n ∧ n ≤ 0xB7) ∨ (0xB9 ≤ n ∧ n ≤ 0xC2) ∨ (0xC4 ≤ n ∧ n ≤ 0xFF)

/-- DIAG as reset and run entry leave it (R29). -/
def Sys2Proof.Claims.NoFault (d : Diag) : Prop := d.kind = .none ∧ d.opcode = 0 ∧ d.index = 0 ∧ d.pos = 0

open Sys2Proof.Claims

/-! ## Encoding -/

/-- Decoding and encoding agree in both directions: every instruction decodes from its encoding, whatever
follows it, and nothing else decodes to it. No operand bit is dropped, and an encoding has one meaning
(30_encoding.md sections 1 to 3). Ill-formed register bytes are included. -/
def Obligations.DecodeEncodeAgree : Prop :=
  (∀ i rest, decode (encode i ++ rest) = .ok i rest) ∧
  (∀ bs i rest, decode bs = .ok i rest → bs = encode i ++ rest)

/-- The opcode alone fixes the number of operand bytes (R57). -/
def Obligations.OpcodeFixesLength : Prop :=
  operandCount 0xC3 = 0 ∧ operandCount 0x89 = 2 ∧ operandCount 0x85 = 2 ∧
  operandCount 0xB8 = 3 ∧ operandCount 0x83 = 3 ∧ operandCount 0x84 = 3 ∧
  (∀ op : Byte, InvalidOpcode op.toNat → operandCount op = 0)

/-- Words written out from the encodings of R58, R56 and R64 decode to the instructions they stand for. -/
def Obligations.WrittenWordsDecode : Prop :=
  decode [0xB8, 0x00, 0x32, 0x12] = .ok (.movImm 0 0x1232) [] ∧
  decodeTableWord 32 0x123200B8 = some (.movImm 0 0x1232) ∧
  decode [0x83, 0x00, 0x45, 0x15] = .ok (.add 0 0x1545) [] ∧
  decode [0x84, 0x01, 0x14, 0x00] = .ok (.sub 1 0x0014) [] ∧
  decode [0x89, 0x02, 0x00] = .ok (.movReg 2 0) [] ∧
  decode [0x85, 0x02, 0x00] = .ok (.test 2 0) [] ∧
  decode [0xC3] = .ok .ret [] ∧
  decode [0x90] = .error (.invalidOpcode 0x90)

/-- Which general register a register-operand byte names (R17, R60): 0..5 in the order AX, BX, CX, DX,
SI, DI, and no other byte names one. -/
def Obligations.RegisterOperandBytes : Prop :=
  regOfByte 0 = some .ax ∧ regOfByte 1 = some .bx ∧ regOfByte 2 = some .cx ∧
  regOfByte 3 = some .dx ∧ regOfByte 4 = some .si ∧ regOfByte 5 = some .di ∧
  (∀ v : Byte, regOfByte v = none ↔ 6 ≤ v.toNat)

/-! ## Reset -/

/-- The values State.reset gives the spec's registers (R31) in the reference instance, MEM_SIZE 1024. -/
def Obligations.ResetStateValues : Prop :=
  (∀ r, State.reset.reg r = 0) ∧ State.reset.sp = 0x03FF ∧ State.reset.bp = 0 ∧ State.reset.ip = 0 ∧
  State.reset.flags = 0 ∧ State.reset.status = .idle ∧ NoFault State.reset.diag

/-- The RESET command (R112), for every memory size and every state with no run in progress: every
register, FLAGS, STATUS and DIAG get the values of R31, memory stays, and a second RESET changes
nothing more.
(A command reaches the core through the model's queue of pending commands, log 4.) -/
def Obligations.ResetCommandWholeState : Prop :=
  ∀ s, Accepts s .reset →
    ∃ t, step s = .next t ∧
      (∀ r, t.reg r = 0) ∧ t.sp = BitVec.ofNat 16 (s.memSize - 1) ∧ t.bp = 0 ∧ t.ip = 0 ∧ t.flags = 0 ∧
      t.status = .idle ∧ NoFault t.diag ∧ KeepsMemory s t ∧
      (Accepts t .reset → step t = .next { t with pending := t.pending.tail })

/-! ## What each instruction does (`exec`, IP already past the instruction) -/

/-- MOV_IMM completes on every valid register operand: x[r] is the immediate, nothing else changes. -/
def Obligations.MovImmWritesOneRegister : Prop :=
  RegImmEffect .movImm fun _ imm new => new = imm

/-- ADD completes on every valid register operand: x[r] is the sum modulo 2^16; FLAGS and everything
else are unchanged. -/
def Obligations.AddWrapsWithoutFlags : Prop :=
  RegImmEffect .add fun old imm new => new = (old + imm) % 65536

/-- SUB completes on every valid register operand: x[r] is the difference modulo 2^16, never negative;
FLAGS and everything else are unchanged. -/
def Obligations.SubWrapsWithoutFlags : Prop :=
  RegImmEffect .sub fun old imm new => new = if imm ≤ old then old - imm else old + 65536 - imm

/-- MOV_REG completes on every pair of valid register operands: x[d] is the old x[s], every other
register (x[s] among them, when d ≠ s) and everything else is unchanged. -/
def Obligations.MovRegCopies : Prop :=
  ∀ (s : State) (d src : Byte) (j k : GReg), regOfByte d = some j → regOfByte src = some k →
    ∃ t, exec (.movReg d src) s = .next t ∧
      t.reg j = s.reg k ∧ (∀ i, i ≠ j → t.reg i = s.reg i) ∧ t.flags = s.flags ∧ Frame s t

/-- TEST completes on every pair of valid register operands: every bit of FLAGS stays but ZF, set when
the two registers are equal, and NE, set when they differ; neither is cleared, and nothing else
changes. -/
def Obligations.TestSetsOneFlag : Prop :=
  ∀ (s : State) (a b : Byte) (j k : GReg), regOfByte a = some j → regOfByte b = some k →
    ∃ t, exec (.test a b) s = .next t ∧
      (t.flags.getLsbD 0 = (s.flags.getLsbD 0 || decide (s.reg j = s.reg k))) ∧
      (t.flags.getLsbD 1 = (s.flags.getLsbD 1 || decide (s.reg j ≠ s.reg k))) ∧
      (∀ n, 2 ≤ n → t.flags.getLsbD n = s.flags.getLsbD n) ∧
      (∀ i, t.reg i = s.reg i) ∧ Frame s t

/-- RET completes in every state: STATUS is HALTED and nothing else changes; nothing is popped. -/
def Obligations.RetHalts : Prop :=
  ∀ s : State, ∃ t, exec .ret s = .next t ∧ t.status = .halted ∧
    t.diag = s.diag ∧ (∀ i, t.reg i = s.reg i) ∧ t.flags = s.flags ∧ t.ip = s.ip ∧
    KeepsStackRegs s t ∧ KeepsMemory s t ∧ KeepsHostLists s t

/-- Where the register–immediate instructions trap: a register byte above 5 raises InvalidRegister
with the instruction's own opcode, and writes no register (R75, R81 to R83; where the check stands is
the spec's decision D6, log 11). -/
def Obligations.RegImmTrapsOnBadRegister : Prop :=
  ∀ (s : State) (r : Byte) (imm : Word), 5 < r.toNat →
    ∀ p ∈ [(Instr.movImm r imm, (0xB8 : Byte)), (.add r imm, 0x83), (.sub r imm, 0x84)],
      exec p.1 s = .next
        { s with
          status := .faulted
          diag := { kind := .invalidRegister, opcode := p.2, index := r, pos := s.ip } }

/-- Where the register–register instructions trap: InvalidRegister for the first operand above 5, the
first operand being checked first (R75, R85, R86; the order is the spec's decision D6, log 11). -/
def Obligations.RegRegTrapsOnBadRegister : Prop :=
  ∀ (s : State) (x y : Byte), 5 < x.toNat ∨ 5 < y.toNat →
    ∀ p ∈ [(Instr.movReg x y, (0x89 : Byte)), (.test x y, 0x85)],
      exec p.1 s = .next
        { s with
          status := .faulted
          diag :=
            { kind := .invalidRegister, opcode := p.2, index := if 5 < x.toNat then x else y, pos := s.ip } }

/-- For a non-zero immediate SUB does what ADD of its two's complement does (R84). -/
def Obligations.SubIsAddOfComplement : Prop :=
  ∀ (s : State) (r : Byte) (imm neg : Word), r.toNat ≤ 5 → imm ≠ 0 → neg.toNat = 65536 - imm.toNat →
    exec (.sub r imm) s = exec (.add r neg) s

/-! ## What each instruction does as a step of a run (fetch, decode, act) -/

/-- MOV_IMM as R81 gives it, from its opcode byte in memory: all its faults, in order, and its effect.
The rule's source property is `SourcePropertiesHold`. (That a failed fetch leaves IP and that the register
check follows all fetches are the spec's decisions D5 and D6, which R81 adopts, log 11; so too below.) -/
def Obligations.MovImmStep : Prop := RegImmRule 0xB8 fun _ imm => imm

/-- ADD as R82 gives it, from its opcode byte in memory. -/
def Obligations.AddStep : Prop := RegImmRule 0x83 fun x imm => BitVec.ofNat 16 (x.toNat + imm.toNat)

/-- SUB as R83 gives it, from its opcode byte in memory. -/
def Obligations.SubStep : Prop := RegImmRule 0x84 fun x imm => BitVec.ofInt 16 ((x.toNat : Int) - imm.toNat)

/-- MOV_REG as R85 gives it, from its opcode byte in memory. -/
def Obligations.MovRegStep : Prop :=
  RegRegRule 0x89 fun s d src => { s with regs := s.regs.set d (s.reg src) }

/-- TEST as R86 gives it, from its opcode byte in memory. -/
def Obligations.TestStep : Prop :=
  RegRegRule 0x85 fun s a b => { s with flags := s.flags ||| (if s.reg a = s.reg b then 0x0001 else 0x0002) }

/-- RET as R88 gives it, from its opcode byte in memory: STATUS becomes HALTED, IP ends at A + 1, and
nothing else of the spec's state changes, whatever bytes follow (for some replies). -/
def Obligations.RetStep : Prop :=
  ∀ s, AtOpcode s 0xC3 →
    ∃ replies, step s = .next { s with ip := s.ip + 1, status := .halted, replies := replies }

/-- Every opcode byte in the ranges R59 lists raises InvalidOpcode after its own fetch: DIAG holds the byte
and A + 1, no operand byte is fetched, nothing else changes (R59, R90); and every byte outside those
ranges is one of the six opcodes of R58. -/
def Obligations.InvalidOpcodeStep : Prop :=
  ∀ s op, AtOpcode s op →
    (InvalidOpcode op.toNat → StepFaults s 1 .invalidOpcode op 0) ∧
    (¬ InvalidOpcode op.toNat → op ∈ [0xB8, 0x83, 0x84, 0x89, 0x85, 0xC3])

/-- A fetch past the end of memory is a MemoryFault, also at the opcode (R94, R96); with MEM_SIZE =
65536 no step raises one. IP stays at the failed fetch (the spec's decision D5, log 11). -/
def Obligations.OpcodeFetchFault : Prop :=
  (∀ s, s.status = .running → ¬ s.inMemory s.ip → StepFaults s 0 .memoryFault 0 0) ∧
  (∀ s t, s.status = .running → s.memSize = 65536 → step s = .next t → t.status = .faulted →
    t.diag.kind ≠ .memoryFault)

/-- `Fetch()` (R44): inside memory it reads the byte at IP and moves IP by one modulo 2^16; at
IP ≥ MEM_SIZE it raises MemoryFault and does not move IP. The last is the spec's decision D5, the wrap
its decision D4 (log 11). -/
def Obligations.FetchReadsAndAdvances : Prop :=
  ∀ (c : Byte) (s : State),
    (s.ip.toNat < s.memSize →
      ∃ t, fetch c s = .ok (s.byteAt s.ip.toNat, t) ∧ t = { s with ip := t.ip } ∧
        t.ip.toNat = (s.ip.toNat + 1) % 65536) ∧
    (s.memSize ≤ s.ip.toNat →
      fetch c s = .error
        { s with status := .faulted, diag := { kind := .memoryFault, opcode := c, index := 0, pos := s.ip } })

/-- A step runs the decoded instruction: when a run is in progress and the bytes at IP decode to `i`,
the step is `exec i` at the state with IP past them, and the run's end adds the EXECUTE result to the
host's replies (the last clause is the model's choice, log 5). -/
def Obligations.StepRunsDecoded : Prop :=
  ∀ (s : State) (bs : List Byte) (i : Instr), s.status = .running → decode bs = .ok i [] →
    s.holds s.ip bs →
    ∃ t, exec i { s with ip := s.ip + BitVec.ofNat 16 bs.length } = .next t ∧
      step s = .next (if t.status = .running then t else { t with replies := t.replies ++ [.ended t.status] })

/-! ## Invariants -/

/-- The state after reset meets the invariant. -/
def Obligations.ResetMeetsInvariant : Prop := State.reset.Inv

/-- Every step keeps the invariant: MEM_SIZE in range, memory canonical and within it, IP ≤ MEM_SIZE,
SP and BP as RESET left them, FLAGS bits 15:2 zero, a fault recorded exactly while FAULTED, DIAG a
record R96 can leave. -/
def Obligations.StepKeepsInvariant : Prop :=
  ∀ s t, s.Inv → step s = .next t → t.Inv

/-- The machine never stops: every state has a next state, for any number of steps (R99, R108: a fault
is a state the host reads, not an end of the machine). -/
def Obligations.MachineNeverStops : Prop := ∀ n s, ∃ t, Steps n s t

/-! ## Whole-machine rules -/

/-- FLAGS is only touched by TEST and by reset (R25).
(A command reaches the core through the model's queue of pending commands, log 4.) -/
def Obligations.OnlyTestAndResetWriteFlags : Prop :=
  ∀ s t, step s = .next t → t.flags ≠ s.flags →
    (Accepts s .reset ∧ t.flags = 0) ∨
    (s.status = .running ∧ ∃ a b j k, s.holds s.ip [0x85, a, b] ∧ regOfByte a = some j ∧
      regOfByte b = some k ∧ t.flags = s.flags ||| (if s.reg j = s.reg k then 0x0001 else 0x0002))

/-- FLAGS bits accumulate (R26, the spec's decision D25, log 12): as long as no RESET is pending, a bit
that is set stays set, over any number of steps, across runs and loads.
(A command reaches the core through the model's queue of pending commands, log 4.) -/
def Obligations.FlagsAccumulate : Prop :=
  ∀ n s t, Command.reset ∉ s.pending → Steps n s t →
    ∀ b, s.flags.getLsbD b = true → t.flags.getLsbD b = true

/-- SP and BP (R19, R20): RESET sets them; nothing else changes them; no instruction reads them (a step
of a run does the same whatever they hold); READ returns them.
(A command reaches the core through the model's queue of pending commands, log 4.) -/
def Obligations.StackRegistersOnlyReset : Prop :=
  (∀ s t, step s = .next t → t.sp ≠ s.sp ∨ t.bp ≠ s.bp → Accepts s .reset) ∧
  (∀ s t, Accepts s .reset → step s = .next t → t.sp.toNat = (s.memSize - 1) % 65536 ∧ t.bp = 0) ∧
  (∀ s sp bp, s.status = .running →
    ∃ t, step s = .next t ∧ step { s with sp := sp, bp := bp } = .next { t with sp := sp, bp := bp }) ∧
  (∀ s, readValue .sp s = .word s.sp ∧ readValue .bp s = .word s.bp)

/-- IP changes in three ways only (R21): RESET sets it to 0, a successful LOAD sets it to 0, and in a run
it moves past the bytes fetched, at most four, each inside memory.
(A command reaches the core through the model's queue of pending commands, log 4.) -/
def Obligations.IpChangesThreeWays : Prop :=
  ∀ s t, step s = .next t → t.ip ≠ s.ip →
    (Accepts s .reset ∧ t.ip = 0) ∨
    (∃ p, Accepts s (.load p) ∧ p.length ≤ s.memSize ∧ t.ip = 0) ∨
    (s.status = .running ∧ ∃ n, 1 ≤ n ∧ n ≤ 4 ∧ t.ip = s.ip + BitVec.ofNat 16 n ∧
      ∀ k, k < n → s.inMemory (s.ip + BitVec.ofNat 16 k))

/-- Only the host's LOAD writes memory, and only the bytes of its program (R42, R114); no step changes
MEM_SIZE.
(A command reaches the core through the model's queue of pending commands, log 4.) -/
def Obligations.OnlyLoadWritesMemory : Prop :=
  ∀ s t, step s = .next t →
    t.memSize = s.memSize ∧
    ∀ a, t.byteAt a ≠ s.byteAt a → ∃ p, Accepts s (.load p) ∧ a < p.length ∧ p.length ≤ s.memSize

/-- Memory is constant during a run (R50): after any number of steps taken while STATUS = RUNNING,
every byte is what it was. -/
def Obligations.MemoryConstantDuringRun : Prop :=
  ∀ n s t, (∀ m, m < n → ∃ u, Steps m s u ∧ u.status = .running) → Steps n s t → KeepsMemory s t

/-- Faults are precise (R76, R97, R98): when a step of a run ends FAULTED, no general register, SP, BP,
FLAGS or memory byte has changed, a fault kind is recorded, and DIAG.pos is IP. -/
def Obligations.FaultsArePrecise : Prop :=
  ∀ s t, s.status = .running → step s = .next t → t.status = .faulted →
    (∀ r, t.reg r = s.reg r) ∧ KeepsStackRegs s t ∧ t.flags = s.flags ∧ KeepsMemory s t ∧
    t.diag.kind ≠ .none ∧ t.diag.pos = t.ip

/-- The transitions of the execute state machine (R71). In a run: RET halts, a well-formed instruction of
the other five keeps running, and everything else faults. Outside a run only EXECUTE and RESET change
STATUS.
(A command reaches the core through the model's queue of pending commands, log 4.) -/
def Obligations.StatusTransitions : Prop :=
  (∀ s t, s.status = .running → step s = .next t →
    (t.status = .halted ↔ s.holds s.ip (encode .ret)) ∧
    (t.status = .running ↔ ∃ i, i ≠ .ret ∧ i.wellFormed = true ∧ s.holds s.ip (encode i)) ∧
    t.status ≠ .idle) ∧
  (∀ s t, s.status ≠ .running → step s = .next t → t.status ≠ s.status →
    (Accepts s .execute ∧ t.status = .running) ∨ (Accepts s .reset ∧ t.status = .idle))

/-- Every run of a memory of at most 65535 bytes ends, within MEM_SIZE - IP + 1 steps (R77). -/
def Obligations.RunsTerminate : Prop :=
  ∀ s, s.status = .running → s.memSize ≤ 65535 → s.ip.toNat ≤ s.memSize →
    ∃ n t, n ≤ s.memSize - s.ip.toNat + 1 ∧ Steps n s t ∧ t.ended

/-- A run whose path holds only well-formed instructions other than RET never ends (R78, for MEM_SIZE =
65536, where such paths exist; R78 names RET and invalid opcodes, and a bad register byte ends a run
too, by R75): if at every step the run has reached so far such an instruction stands at IP, the run is
still RUNNING. -/
def Obligations.RunWithoutRetOrFaultGoesOn : Prop :=
  ∀ s n, s.status = .running →
    (∀ m u, m < n → Steps m s u → ∃ i, i ≠ .ret ∧ i.wellFormed = true ∧ u.holds u.ip (encode i)) →
    ∃ t, Steps n s t ∧ t.status = .running

/-- Control flow is straight-line (R22, R89): well-formed instructions other than RET, standing one after
another at IP, all run, one a step, and leave IP past the last; memory, SP and BP are unchanged. -/
def Obligations.StraightLineRun : Prop :=
  ∀ (is : List Instr) (s : State), s.status = .running → (∀ i ∈ is, i ≠ .ret ∧ i.wellFormed = true) →
    s.holds s.ip (is.flatMap encode) →
    ∃ t, Steps is.length s t ∧ t.status = .running ∧
      t.ip = s.ip + BitVec.ofNat 16 (is.flatMap encode).length ∧ KeepsMemory s t ∧ KeepsStackRegs s t

/-- The source properties that R81, R82 and R83 quote, for every immediate: MOV_IMM then RET leaves the
register equal to the immediate and the others as they were; MOV_IMM 0 a; ADD 0 b; RET leaves AX at
(a + b) mod 65536; with SUB, at (a - b) mod 65536. -/
def Obligations.SourcePropertiesHold : Prop :=
  ∀ (s : State), s.status = .running →
    (∀ (r : Byte) (k : GReg) (imm : Word), regOfByte r = some k →
      s.holds s.ip (encode (.movImm r imm) ++ encode .ret) →
      ∃ t, Steps 2 s t ∧ t.status = .halted ∧ t.reg k = imm ∧ ∀ j, j ≠ k → t.reg j = s.reg j) ∧
    (∀ a b : Word, s.holds s.ip (encode (.movImm 0 a) ++ encode (.add 0 b) ++ encode .ret) →
      ∃ t, Steps 3 s t ∧ t.status = .halted ∧ (t.reg .ax).toNat = (a.toNat + b.toNat) % 65536) ∧
    (∀ a b : Word, s.holds s.ip (encode (.movImm 0 a) ++ encode (.sub 0 b) ++ encode .ret) →
      ∃ t, Steps 3 s t ∧ t.status = .halted ∧ (t.reg .ax).toNat = (a.toNat + 65536 - b.toNat) % 65536)

/-! ## What a step does not depend on -/

/-- A step of a run depends on no memory byte but the (at most four) bytes at IP: with any other memory
that agrees there, it does the same (R42, R72). -/
def Obligations.StepReadsOnlyBytesAtIp : Prop :=
  ∀ (s : State) (m : Memory), s.status = .running →
    (∀ k, k < 4 → ({ s with mem := m }).byteAt (s.ip + BitVec.ofNat 16 k).toNat =
      s.byteAt (s.ip + BitVec.ofNat 16 k).toNat) →
    ∃ t, step s = .next t ∧ step { s with mem := m } = .next { t with mem := m }

/-- No instruction reads FLAGS (R27): with any other FLAGS a step of a run does the same to everything
but FLAGS. -/
def Obligations.NoInstructionReadsFlags : Prop :=
  ∀ (s : State) (f : Word), s.status = .running →
    ∃ t u, step s = .next t ∧ step { s with flags := f } = .next u ∧ { t with flags := u.flags } = u

/-- The host is blocked while a run is in progress (R118): no pending command is accepted, and the step
does the same whatever commands are pending (the queue is the model's, log 4). -/
def Obligations.HostBlockedWhileRunning : Prop :=
  ∀ (s : State) (cs : List Command), s.status = .running →
    ∃ t, step s = .next t ∧ t.pending = s.pending ∧ step { s with pending := cs } = .next { t with pending := cs }

/-! ## The host's commands -/

/-- EXECUTE (R70, the spec's decision D9 for DIAG, log 13): STATUS becomes RUNNING, DIAG is cleared, and IP, the
registers, FLAGS and memory keep their values.
(A command reaches the core through the model's queue of pending commands, log 4.) -/
def Obligations.ExecuteEntersRun : Prop :=
  ∀ s, Accepts s .execute →
    ∃ t, step s = .next t ∧ t.status = .running ∧ NoFault t.diag ∧
      t = { s with status := t.status, diag := t.diag, pending := s.pending.tail }

/-- LOAD of a program that fits (R114; that n = 0 and n = MEM_SIZE fit is the spec's decision D24, the
result code its decision D11, log 13): the program stands at address 0, every other byte is as
before, IP is 0, the registers, FLAGS, STATUS and DIAG stay, and the result is LOAD_OK.
(A command reaches the core through the model's queue of pending commands, log 4.) -/
def Obligations.LoadWritesProgram : Prop :=
  ∀ s p, Accepts s (.load p) → p.length ≤ s.memSize →
    ∃ t, step s = .next t ∧
      (∀ (k : Nat) (h : k < p.length), t.byteAt k = p[k]) ∧
      (∀ a, p.length ≤ a → t.byteAt a = s.byteAt a) ∧
      t = { s with mem := t.mem, ip := 0, pending := s.pending.tail, replies := s.replies ++ [.loadOk] }

/-- LOAD of a program longer than MEM_SIZE (R115; that IP stays and the result code are the spec's
decision D11, log 13) changes nothing and is answered LOAD_TOO_LARGE.
(A command reaches the core through the model's queue of pending commands, log 4.) -/
def Obligations.OversizeLoadChangesNothing : Prop :=
  ∀ s p, Accepts s (.load p) → s.memSize < p.length →
    step s = .next { s with pending := s.pending.tail, replies := s.replies ++ [.loadTooLarge] }

/-- READ (R119; that IP, STATUS and DIAG are readable is the spec's decision D19, log 13; how the value is
delivered is the model's, logs 5 and 15) returns the register's value, STATUS and DIAG.kind by the
codes of R28 and R29, and changes no state.
(A command reaches the core through the model's queue of pending commands, log 4.) -/
def Obligations.ReadReturnsRegister : Prop :=
  ∀ s r, Accepts s (.read r) →
    ∃ v, step s = .next { s with pending := s.pending.tail, replies := s.replies ++ [.value v] } ∧
      (∀ k, r = .x k → v = .word (s.reg k)) ∧
      (r = .sp → v = .word s.sp) ∧ (r = .bp → v = .word s.bp) ∧ (r = .ip → v = .word s.ip) ∧
      (r = .flags → v = .word s.flags) ∧
      (r = .status → v = .status
        (match s.status with | .idle => 0 | .running => 1 | .halted => 2 | .faulted => 3)) ∧
      (r = .diag → v = .diag
        (match s.diag.kind with | .none => 0 | .memoryFault => 1 | .invalidOpcode => 2 | .invalidRegister => 3)
        s.diag.opcode s.diag.index s.diag.pos)

/-- With no run in progress and no command pending the core does nothing, and all state survives (R108;
that such a step answers the same state is the model's choice, log 7). -/
def Obligations.IdleCoreKeepsState : Prop :=
  ∀ s, s.status ≠ .running → s.pending = [] → step s = .next s

/-- EXECUTE completes when STATUS becomes HALTED or FAULTED and its result is that STATUS (R116): exactly
the step that ends a run adds that one result to the host's replies (the list is the model's, log 5). -/
def Obligations.RunEndDeliversStatus : Prop :=
  ∀ s t, s.status = .running → step s = .next t →
    t.replies = if t.status = .running then s.replies else s.replies ++ [.ended t.status]

/-- A run continues where the last one stopped (R80): EXECUTE after a MemoryFault, with no LOAD or RESET
between, faults at once with the same IP and the MemoryFault of an opcode fetch, all registers kept
(R80 case d; the spec's decision D18, log 13).
(A command reaches the core through the model's queue of pending commands, log 4.) -/
def Obligations.ExecuteAfterMemoryFaultFaultsAgain : Prop :=
  ∀ s, Accepts s .execute → ¬ s.inMemory s.ip →
    ∃ t, Steps 2 s t ∧ t.status = .faulted ∧ t.ip = s.ip ∧
      t.diag = { kind := .memoryFault, opcode := 0, index := 0, pos := s.ip } ∧
      t.regs = s.regs ∧ t.flags = s.flags ∧ KeepsStackRegs s t ∧ KeepsMemory s t

/-- The clean launch premise (R121): after RESET and a LOAD that succeeds, the program stands at 0, the
bytes after it are as before, and every register is as reset leaves it.
(A command reaches the core through the model's queue of pending commands, log 4.) -/
def Obligations.CleanLaunchState : Prop :=
  ∀ s p cs, s.status ≠ .running → s.pending = .reset :: .load p :: cs → p.length ≤ s.memSize →
    ∃ t, Steps 2 s t ∧
      (∀ (k : Nat) (h : k < p.length), t.byteAt k = p[k]) ∧
      (∀ a, p.length ≤ a → t.byteAt a = s.byteAt a) ∧
      (∀ r, t.reg r = 0) ∧ t.sp = BitVec.ofNat 16 (s.memSize - 1) ∧ t.bp = 0 ∧ t.ip = 0 ∧ t.flags = 0 ∧
      t.status = .idle ∧ NoFault t.diag ∧ t.memSize = s.memSize ∧ t.pending = cs
end

