-- ==== Sys2Proof/Laws/State.lean ====
section
/-! SUPPORT. What each named update does to each field of the state, one lemma per field per update,
so that no proof unfolds a record update. -/

namespace Sys2Proof.Machine

variable (s : State)

/-! ## writeReg -/

@[simp] theorem writeReg_memSize (r : GReg) (v : Word) : (writeReg r v s).memSize = s.memSize := rfl
@[simp] theorem writeReg_mem (r : GReg) (v : Word) : (writeReg r v s).mem = s.mem := rfl
@[simp] theorem writeReg_regs (r : GReg) (v : Word) : (writeReg r v s).regs = s.regs.set r v := rfl
@[simp] theorem writeReg_sp (r : GReg) (v : Word) : (writeReg r v s).sp = s.sp := rfl
@[simp] theorem writeReg_bp (r : GReg) (v : Word) : (writeReg r v s).bp = s.bp := rfl
@[simp] theorem writeReg_ip (r : GReg) (v : Word) : (writeReg r v s).ip = s.ip := rfl
@[simp] theorem writeReg_flags (r : GReg) (v : Word) : (writeReg r v s).flags = s.flags := rfl
@[simp] theorem writeReg_status (r : GReg) (v : Word) : (writeReg r v s).status = s.status := rfl
@[simp] theorem writeReg_diag (r : GReg) (v : Word) : (writeReg r v s).diag = s.diag := rfl
@[simp] theorem writeReg_pending (r : GReg) (v : Word) : (writeReg r v s).pending = s.pending := rfl
@[simp] theorem writeReg_replies (r : GReg) (v : Word) : (writeReg r v s).replies = s.replies := rfl
@[simp] theorem writeReg_byteAt (r : GReg) (v : Word) (a : Nat) : (writeReg r v s).byteAt a = s.byteAt a := rfl

/-! ## writeFlags -/

@[simp] theorem writeFlags_memSize (v : Word) : (writeFlags v s).memSize = s.memSize := rfl
@[simp] theorem writeFlags_mem (v : Word) : (writeFlags v s).mem = s.mem := rfl
@[simp] theorem writeFlags_regs (v : Word) : (writeFlags v s).regs = s.regs := rfl
@[simp] theorem writeFlags_sp (v : Word) : (writeFlags v s).sp = s.sp := rfl
@[simp] theorem writeFlags_bp (v : Word) : (writeFlags v s).bp = s.bp := rfl
@[simp] theorem writeFlags_ip (v : Word) : (writeFlags v s).ip = s.ip := rfl
@[simp] theorem writeFlags_flags (v : Word) : (writeFlags v s).flags = v := rfl
@[simp] theorem writeFlags_status (v : Word) : (writeFlags v s).status = s.status := rfl
@[simp] theorem writeFlags_diag (v : Word) : (writeFlags v s).diag = s.diag := rfl
@[simp] theorem writeFlags_pending (v : Word) : (writeFlags v s).pending = s.pending := rfl
@[simp] theorem writeFlags_replies (v : Word) : (writeFlags v s).replies = s.replies := rfl
@[simp] theorem writeFlags_byteAt (v : Word) (a : Nat) : (writeFlags v s).byteAt a = s.byteAt a := rfl
@[simp] theorem writeFlags_reg (v : Word) (j : GReg) : (writeFlags v s).reg j = s.reg j := rfl

/-! ## advance -/

@[simp] theorem advance_memSize (n : Nat) : (advance n s).memSize = s.memSize := rfl
@[simp] theorem advance_mem (n : Nat) : (advance n s).mem = s.mem := rfl
@[simp] theorem advance_regs (n : Nat) : (advance n s).regs = s.regs := rfl
@[simp] theorem advance_sp (n : Nat) : (advance n s).sp = s.sp := rfl
@[simp] theorem advance_bp (n : Nat) : (advance n s).bp = s.bp := rfl
@[simp] theorem advance_ip (n : Nat) : (advance n s).ip = s.ip + BitVec.ofNat 16 n := rfl
@[simp] theorem advance_flags (n : Nat) : (advance n s).flags = s.flags := rfl
@[simp] theorem advance_status (n : Nat) : (advance n s).status = s.status := rfl
@[simp] theorem advance_diag (n : Nat) : (advance n s).diag = s.diag := rfl
@[simp] theorem advance_pending (n : Nat) : (advance n s).pending = s.pending := rfl
@[simp] theorem advance_replies (n : Nat) : (advance n s).replies = s.replies := rfl
@[simp] theorem advance_byteAt (n : Nat) (a : Nat) : (advance n s).byteAt a = s.byteAt a := rfl
@[simp] theorem advance_reg (n : Nat) (j : GReg) : (advance n s).reg j = s.reg j := rfl

/-! ## raise -/

@[simp] theorem raise_memSize (k : FaultKind) (o i : Byte) (p : Word) : (raise k o i p s).memSize = s.memSize := rfl
@[simp] theorem raise_mem (k : FaultKind) (o i : Byte) (p : Word) : (raise k o i p s).mem = s.mem := rfl
@[simp] theorem raise_regs (k : FaultKind) (o i : Byte) (p : Word) : (raise k o i p s).regs = s.regs := rfl
@[simp] theorem raise_sp (k : FaultKind) (o i : Byte) (p : Word) : (raise k o i p s).sp = s.sp := rfl
@[simp] theorem raise_bp (k : FaultKind) (o i : Byte) (p : Word) : (raise k o i p s).bp = s.bp := rfl
@[simp] theorem raise_ip (k : FaultKind) (o i : Byte) (p : Word) : (raise k o i p s).ip = s.ip := rfl
@[simp] theorem raise_flags (k : FaultKind) (o i : Byte) (p : Word) : (raise k o i p s).flags = s.flags := rfl
@[simp] theorem raise_status (k : FaultKind) (o i : Byte) (p : Word) : (raise k o i p s).status = .faulted := rfl
@[simp] theorem raise_diag (k : FaultKind) (o i : Byte) (p : Word) : (raise k o i p s).diag = { kind := k, opcode := o, index := i, pos := p } := rfl
@[simp] theorem raise_pending (k : FaultKind) (o i : Byte) (p : Word) : (raise k o i p s).pending = s.pending := rfl
@[simp] theorem raise_replies (k : FaultKind) (o i : Byte) (p : Word) : (raise k o i p s).replies = s.replies := rfl
@[simp] theorem raise_byteAt (k : FaultKind) (o i : Byte) (p : Word) (a : Nat) : (raise k o i p s).byteAt a = s.byteAt a := rfl
@[simp] theorem raise_reg (k : FaultKind) (o i : Byte) (p : Word) (j : GReg) : (raise k o i p s).reg j = s.reg j := rfl

/-! ## haltRun -/

@[simp] theorem haltRun_memSize : (haltRun s).memSize = s.memSize := rfl
@[simp] theorem haltRun_mem : (haltRun s).mem = s.mem := rfl
@[simp] theorem haltRun_regs : (haltRun s).regs = s.regs := rfl
@[simp] theorem haltRun_sp : (haltRun s).sp = s.sp := rfl
@[simp] theorem haltRun_bp : (haltRun s).bp = s.bp := rfl
@[simp] theorem haltRun_ip : (haltRun s).ip = s.ip := rfl
@[simp] theorem haltRun_flags : (haltRun s).flags = s.flags := rfl
@[simp] theorem haltRun_status : (haltRun s).status = .halted := rfl
@[simp] theorem haltRun_diag : (haltRun s).diag = s.diag := rfl
@[simp] theorem haltRun_pending : (haltRun s).pending = s.pending := rfl
@[simp] theorem haltRun_replies : (haltRun s).replies = s.replies := rfl
@[simp] theorem haltRun_byteAt (a : Nat) : (haltRun s).byteAt a = s.byteAt a := rfl
@[simp] theorem haltRun_reg (j : GReg) : (haltRun s).reg j = s.reg j := rfl

/-! ## enterRun -/

@[simp] theorem enterRun_memSize : (enterRun s).memSize = s.memSize := rfl
@[simp] theorem enterRun_mem : (enterRun s).mem = s.mem := rfl
@[simp] theorem enterRun_regs : (enterRun s).regs = s.regs := rfl
@[simp] theorem enterRun_sp : (enterRun s).sp = s.sp := rfl
@[simp] theorem enterRun_bp : (enterRun s).bp = s.bp := rfl
@[simp] theorem enterRun_ip : (enterRun s).ip = s.ip := rfl
@[simp] theorem enterRun_flags : (enterRun s).flags = s.flags := rfl
@[simp] theorem enterRun_status : (enterRun s).status = .running := rfl
@[simp] theorem enterRun_diag : (enterRun s).diag = Diag.clear := rfl
@[simp] theorem enterRun_pending : (enterRun s).pending = s.pending := rfl
@[simp] theorem enterRun_replies : (enterRun s).replies = s.replies := rfl
@[simp] theorem enterRun_byteAt (a : Nat) : (enterRun s).byteAt a = s.byteAt a := rfl
@[simp] theorem enterRun_reg (j : GReg) : (enterRun s).reg j = s.reg j := rfl

/-! ## deliver -/

@[simp] theorem deliver_memSize (r : Reply) : (deliver r s).memSize = s.memSize := rfl
@[simp] theorem deliver_mem (r : Reply) : (deliver r s).mem = s.mem := rfl
@[simp] theorem deliver_regs (r : Reply) : (deliver r s).regs = s.regs := rfl
@[simp] theorem deliver_sp (r : Reply) : (deliver r s).sp = s.sp := rfl
@[simp] theorem deliver_bp (r : Reply) : (deliver r s).bp = s.bp := rfl
@[simp] theorem deliver_ip (r : Reply) : (deliver r s).ip = s.ip := rfl
@[simp] theorem deliver_flags (r : Reply) : (deliver r s).flags = s.flags := rfl
@[simp] theorem deliver_status (r : Reply) : (deliver r s).status = s.status := rfl
@[simp] theorem deliver_diag (r : Reply) : (deliver r s).diag = s.diag := rfl
@[simp] theorem deliver_pending (r : Reply) : (deliver r s).pending = s.pending := rfl
@[simp] theorem deliver_replies (r : Reply) : (deliver r s).replies = s.replies ++ [r] := rfl
@[simp] theorem deliver_byteAt (r : Reply) (a : Nat) : (deliver r s).byteAt a = s.byteAt a := rfl
@[simp] theorem deliver_reg (r : Reply) (j : GReg) : (deliver r s).reg j = s.reg j := rfl

/-! ## resetCommand -/

@[simp] theorem resetCommand_memSize : (resetCommand s).memSize = s.memSize := rfl
@[simp] theorem resetCommand_mem : (resetCommand s).mem = s.mem := rfl
@[simp] theorem resetCommand_regs : (resetCommand s).regs = { ax := 0, bx := 0, cx := 0, dx := 0, si := 0, di := 0 } := rfl
@[simp] theorem resetCommand_sp : (resetCommand s).sp = topOfMemory s.memSize := rfl
@[simp] theorem resetCommand_bp : (resetCommand s).bp = 0 := rfl
@[simp] theorem resetCommand_ip : (resetCommand s).ip = 0 := rfl
@[simp] theorem resetCommand_flags : (resetCommand s).flags = 0 := rfl
@[simp] theorem resetCommand_status : (resetCommand s).status = .idle := rfl
@[simp] theorem resetCommand_diag : (resetCommand s).diag = Diag.clear := rfl
@[simp] theorem resetCommand_pending : (resetCommand s).pending = s.pending := rfl
@[simp] theorem resetCommand_replies : (resetCommand s).replies = s.replies := rfl
@[simp] theorem resetCommand_byteAt (a : Nat) : (resetCommand s).byteAt a = s.byteAt a := rfl

/-! ## loadProgram -/

@[simp] theorem loadProgram_memSize (p : List Byte) : (loadProgram p s).memSize = s.memSize := rfl
@[simp] theorem loadProgram_mem (p : List Byte) : (loadProgram p s).mem = Memory.store s.mem 0 p := rfl
@[simp] theorem loadProgram_regs (p : List Byte) : (loadProgram p s).regs = s.regs := rfl
@[simp] theorem loadProgram_sp (p : List Byte) : (loadProgram p s).sp = s.sp := rfl
@[simp] theorem loadProgram_bp (p : List Byte) : (loadProgram p s).bp = s.bp := rfl
@[simp] theorem loadProgram_ip (p : List Byte) : (loadProgram p s).ip = 0 := rfl
@[simp] theorem loadProgram_flags (p : List Byte) : (loadProgram p s).flags = s.flags := rfl
@[simp] theorem loadProgram_status (p : List Byte) : (loadProgram p s).status = s.status := rfl
@[simp] theorem loadProgram_diag (p : List Byte) : (loadProgram p s).diag = s.diag := rfl
@[simp] theorem loadProgram_pending (p : List Byte) : (loadProgram p s).pending = s.pending := rfl
@[simp] theorem loadProgram_replies (p : List Byte) : (loadProgram p s).replies = s.replies := rfl
@[simp] theorem loadProgram_reg (p : List Byte) (j : GReg) : (loadProgram p s).reg j = s.reg j := rfl

/-! ## The register file -/

@[simp] theorem RegFile.get_set_self (f : RegFile) (r : GReg) (v : Word) : (f.set r v).get r = v := by
  cases r <;> rfl

@[simp] theorem RegFile.get_set_ne (f : RegFile) {r j : GReg} (v : Word) (h : j ≠ r) :
    (f.set r v).get j = f.get j := by
  cases r <;> cases j <;> first | rfl | exact absurd rfl h

@[simp] theorem RegFile.set_get_self (f : RegFile) (r : GReg) : f.set r (f.get r) = f := by
  cases r <;> rfl

@[simp] theorem writeReg_reg_self (r : GReg) (v : Word) : (writeReg r v s).reg r = v :=
  RegFile.get_set_self _ _ _

@[simp] theorem writeReg_reg_ne {r j : GReg} (v : Word) (h : j ≠ r) : (writeReg r v s).reg j = s.reg j :=
  RegFile.get_set_ne _ _ h

@[simp] theorem resetCommand_reg (j : GReg) : (resetCommand s).reg j = 0 := by cases j <;> rfl

/-! ## Advancing IP -/

@[simp] theorem advance_zero : advance 0 s = s := by simp [advance]

@[simp] theorem advance_advance (m n : Nat) : advance n (advance m s) = advance (m + n) s := by
  simp [advance, BitVec.ofNat_add, BitVec.add_assoc]

end Sys2Proof.Machine
end

