-- ==== Sys2Proof/Laws/Memory.lean ====
section
/-! SUPPORT. Memory: reading after a write, the canonical form, and what every memory operation
keeps. -/

namespace Sys2Proof.Machine

theorem Memory.read_write_self (m : Memory) (a : Nat) (b : Byte) :
    Memory.read (Memory.write m a b) a = some b := by
  induction m with
  | nil => simp [Memory.write, Memory.read]
  | cons c cs ih =>
    simp only [Memory.write]
    split
    · simp [Memory.read]
    · split
      · simp [Memory.read]
      · next h₁ h₂ => rw [Memory.read, if_neg (Ne.symm h₂), ih]

theorem Memory.read_write_ne (m : Memory) {a a' : Nat} (b : Byte) (h : a' ≠ a) :
    Memory.read (Memory.write m a b) a' = Memory.read m a' := by
  induction m with
  | nil => simp [Memory.write, Memory.read, h.symm]
  | cons c cs ih =>
    simp only [Memory.write]
    split
    · simp [Memory.read, h.symm]
    · split
      · next h₂ => simp [Memory.read, ← h₂, h.symm]
      · simp [Memory.read, ih]

theorem Memory.mem_write {m : Memory} {a : Nat} {b : Byte} {c : Host.Cell}
    (h : c ∈ Memory.write m a b) : c = (a, b) ∨ c ∈ m := by
  induction m with
  | nil => simpa [Memory.write] using h
  | cons d ds ih =>
    simp only [Memory.write] at h
    split at h
    · simpa using h
    · split at h
      · simp only [List.mem_cons] at h ⊢; tauto
      · simp only [List.mem_cons] at h ⊢
        rcases h with h | h
        · exact .inr (.inl h)
        · rcases ih h with h | h <;> tauto

/-- A write keeps the canonical form. -/
theorem Memory.wf_write {m : Memory} (h : Memory.wf m) (a : Nat) (b : Byte) :
    Memory.wf (Memory.write m a b) := by
  induction m with
  | nil => simp [Memory.write]
  | cons d ds ih =>
    have hd := List.pairwise_cons.1 h
    simp only [Memory.write]
    split
    · next ha =>
      refine List.pairwise_cons.2 ⟨fun c hc => ?_, h⟩
      rcases List.mem_cons.1 hc with rfl | hc
      · exact ha
      · exact lt_trans ha (hd.1 c hc)
    · split
      · next h₂ => exact List.pairwise_cons.2 ⟨fun c hc => h₂ ▸ hd.1 c hc, hd.2⟩
      · next h₁ h₂ =>
        refine List.pairwise_cons.2 ⟨fun c hc => ?_, ih hd.2⟩
        rcases Memory.mem_write hc with rfl | hc
        · show d.1 < a; omega
        · exact hd.1 c hc

theorem Memory.within_write {m : Memory} {size : Nat} (h : Memory.within size m) {a : Nat}
    (ha : a < size) (b : Byte) : Memory.within size (Memory.write m a b) := by
  intro c hc
  rcases Memory.mem_write hc with rfl | hc
  · exact ha
  · exact h c hc

/-- A load keeps the canonical form. -/
theorem Memory.wf_store {m : Memory} (h : Memory.wf m) (a : Nat) (bs : List Byte) :
    Memory.wf (Memory.store m a bs) := by
  induction bs generalizing m a with
  | nil => exact h
  | cons b bs ih => exact ih (Memory.wf_write h a b) (a + 1)

theorem Memory.within_store {m : Memory} {size : Nat} (h : Memory.within size m) {a : Nat}
    {bs : List Byte} (ha : a + bs.length ≤ size) : Memory.within size (Memory.store m a bs) := by
  induction bs generalizing m a with
  | nil => exact h
  | cons b bs ih =>
    simp only [List.length_cons] at ha
    exact ih (Memory.within_write h (by omega) b) (by omega)

/-- What a load leaves at an address: the program's byte inside it, the old byte outside. -/
theorem Memory.read_store (m : Memory) (a : Nat) (bs : List Byte) (x : Nat) :
    Memory.read (Memory.store m a bs) x =
      if a ≤ x ∧ x < a + bs.length then bs[x - a]? else Memory.read m x := by
  induction bs generalizing m a with
  | nil => simp [Memory.store]
  | cons b bs ih =>
    rw [Memory.store, ih]
    simp only [List.length_cons]
    by_cases h₁ : a + 1 ≤ x ∧ x < a + 1 + bs.length
    · rw [if_pos h₁, if_pos (by omega), show x - a = (x - (a + 1)) + 1 by omega, List.getElem?_cons_succ]
    · rw [if_neg h₁]
      by_cases h₂ : x = a
      · subst h₂
        rw [if_pos (by omega), Memory.read_write_self]; simp
      · rw [if_neg (by omega), Memory.read_write_ne _ _ h₂]

theorem Memory.read_none_of_lt {m : Memory} {a : Nat} (h : ∀ c ∈ m, a < c.1) : Memory.read m a = none := by
  induction m with
  | nil => rfl
  | cons c cs ih =>
    rw [Memory.read, if_neg (by have := h c (by simp); omega), ih fun d hd => h d (by simp [hd])]

/-- Memories in canonical form that read alike at every address are equal data. -/
theorem Memory.eq_of_read_eq {m m' : Memory} (h : Memory.wf m) (h' : Memory.wf m')
    (e : ∀ a, Memory.read m a = Memory.read m' a) : m = m' := by
  induction m generalizing m' with
  | nil =>
    cases m' with
    | nil => rfl
    | cons d ds => have := e d.1; simp [Memory.read] at this
  | cons c cs ih =>
    have hc := List.pairwise_cons.1 h
    cases m' with
    | nil => have := e c.1; simp [Memory.read] at this
    | cons d ds =>
      have hd := List.pairwise_cons.1 h'
      have none_c : Memory.read cs c.1 = none := Memory.read_none_of_lt hc.1
      have none_d : Memory.read ds d.1 = none := Memory.read_none_of_lt hd.1
      have key : c.1 = d.1 := by
        by_contra hne
        rcases Nat.lt_or_gt_of_ne hne with hlt | hlt
        · have := e c.1
          rw [Memory.read, if_pos rfl, Memory.read, if_neg (Ne.symm hne),
            Memory.read_none_of_lt fun x hx => lt_trans hlt (hd.1 x hx)] at this
          cases this
        · have := e d.1
          rw [Memory.read, if_neg hne, Memory.read_none_of_lt fun x hx => lt_trans hlt (hc.1 x hx),
            Memory.read, if_pos rfl] at this
          cases this
      have val : c.2 = d.2 := by
        have := e c.1
        rw [Memory.read, if_pos rfl, Memory.read, if_pos key.symm] at this
        exact Option.some.inj this
      have hcd : c = d := Prod.ext key val
      subst hcd
      refine congrArg (c :: ·) (ih hc.2 hd.2 fun a => ?_)
      by_cases ha : c.1 = a
      · subst ha; rw [none_c, none_d]
      · have := e a
        rwa [Memory.read, if_neg ha, Memory.read, if_neg ha] at this

/-- M after a LOAD (R114), byte by byte. -/
theorem loadProgram_byteAt (s : State) (p : List Byte) (a : Nat) :
    (loadProgram p s).byteAt a = if h : a < p.length then p[a] else s.byteAt a := by
  simp only [State.byteAt, loadProgram_mem, Memory.read_store]
  by_cases h : a < p.length
  · simp [h]
  · simp [h]

/-- Placing an instruction keeps the canonical form of memory and its bounds. -/
theorem placeInstruction_mem_wf {s : State} (h : Memory.wf s.mem) (bs : List Byte) :
    Memory.wf (placeInstruction bs s).mem :=
  Memory.wf_store h _ _

theorem placeInstruction_mem_within {s : State} (h : Memory.within s.memSize s.mem) (bs : List Byte)
    (hs : placementAddress s ≤ s.memSize) : Memory.within s.memSize (placeInstruction bs s).mem := by
  refine Memory.within_store h ?_
  simp only [List.length_take]
  omega

theorem reset_mem_wf : Memory.wf State.reset.mem := List.Pairwise.nil

end Sys2Proof.Machine
end

