-- ==== Sys2Proof/Laws/Decode.lean ====
section
/-! SUPPORT. The bit facts of the immediate, and the decoder's answer once the opcode is known. -/

namespace Sys2Proof

/-- The immediate as a number: the low byte counts once, the high byte 256 times (R61). -/
theorem imm16_toNat (lo hi : Byte) : (imm16 lo hi).toNat = lo.toNat + 256 * hi.toNat := by
  have hl := lo.isLt
  have hh := hi.isLt
  have sum := Nat.two_pow_add_eq_or_of_lt (i := 8) hl hi.toNat
  simp only [imm16, BitVec.toNat_or, BitVec.toNat_setWidth, BitVec.toNat_shiftLeft, Nat.shiftLeft_eq]
  rw [Nat.mod_eq_of_lt (by omega : lo.toNat < 2 ^ 16), Nat.mod_eq_of_lt (by omega : hi.toNat < 2 ^ 16),
    Nat.mod_eq_of_lt (by omega), Nat.mul_comm hi.toNat, Nat.or_comm, ← sum]
  omega

theorem immLo_imm16 (lo hi : Byte) : immLo (imm16 lo hi) = lo := by
  apply BitVec.eq_of_toNat_eq
  have := imm16_toNat lo hi
  have hl := lo.isLt
  simp only [immLo, BitVec.toNat_setWidth]
  omega

theorem immHi_imm16 (lo hi : Byte) : immHi (imm16 lo hi) = hi := by
  apply BitVec.eq_of_toNat_eq
  have := imm16_toNat lo hi
  have hl := lo.isLt
  have hh := hi.isLt
  simp only [immHi, BitVec.toNat_setWidth, BitVec.toNat_ushiftRight, Nat.shiftRight_eq_div_pow]
  omega

theorem imm16_immLo_immHi (imm : Word) : imm16 (immLo imm) (immHi imm) = imm := by
  apply BitVec.eq_of_toNat_eq
  have h := imm.isLt
  rw [imm16_toNat]
  simp only [immLo, immHi, BitVec.toNat_setWidth, BitVec.toNat_ushiftRight, Nat.shiftRight_eq_div_pow]
  omega

@[simp] theorem decode_opMovImm (rest : List Byte) :
    decode (opMovImm :: rest) = decodeRI .movImm opMovImm rest := rfl
@[simp] theorem decode_opAdd (rest : List Byte) : decode (opAdd :: rest) = decodeRI .add opAdd rest := rfl
@[simp] theorem decode_opSub (rest : List Byte) : decode (opSub :: rest) = decodeRI .sub opSub rest := rfl
@[simp] theorem decode_opMovReg (rest : List Byte) :
    decode (opMovReg :: rest) = decodeRR .movReg opMovReg rest := rfl
@[simp] theorem decode_opTest (rest : List Byte) : decode (opTest :: rest) = decodeRR .test opTest rest := rfl
@[simp] theorem decode_opRet (rest : List Byte) : decode (opRet :: rest) = .ok .ret rest := rfl

@[simp] theorem operandCount_opMovImm : operandCount opMovImm = 3 := rfl
@[simp] theorem operandCount_opAdd : operandCount opAdd = 3 := rfl
@[simp] theorem operandCount_opSub : operandCount opSub = 3 := rfl
@[simp] theorem operandCount_opMovReg : operandCount opMovReg = 2 := rfl
@[simp] theorem operandCount_opTest : operandCount opTest = 2 := rfl
@[simp] theorem operandCount_opRet : operandCount opRet = 0 := rfl

/-- A byte outside the opcode map (R59) takes no operand byte. -/
theorem operandCount_of_invalid {op : Byte}
    (h : op ∉ [opMovImm, opAdd, opSub, opMovReg, opTest, opRet]) : operandCount op = 0 := by
  simp only [List.mem_cons, List.not_mem_nil, or_false, not_or] at h
  simp [operandCount, h]

/-- A byte outside the opcode map (R59) decodes to nothing. -/
theorem decode_of_invalid {op : Byte} (rest : List Byte)
    (h : op ∉ [opMovImm, opAdd, opSub, opMovReg, opTest, opRet]) :
    decode (op :: rest) = .error (.invalidOpcode op) := by
  simp only [List.mem_cons, List.not_mem_nil, or_false, not_or] at h
  simp [decode, h]

/-- Every byte is one of the six opcodes or invalid (R58, R59). -/
theorem opcode_cases (op : Byte) :
    op = opMovImm ∨ op = opAdd ∨ op = opSub ∨ op = opMovReg ∨ op = opTest ∨ op = opRet ∨
      op ∉ [opMovImm, opAdd, opSub, opMovReg, opTest, opRet] := by
  simp only [List.mem_cons, List.not_mem_nil, or_false]
  tauto

end Sys2Proof
end

