-- ==== Sys2Proof/Laws/Ops.lean ====
section
/-! SUPPORT. What each shared operation can do, said once: fetching, checking a register operand, the
two instruction shapes, the ends of a run. -/

namespace Sys2Proof.Machine

/-! ## Fetching -/

theorem fetch_of_inMemory (c : Byte) {s : State} (h : s.inMemory s.ip) :
    fetch c s = .ok (s.byteAt s.ip.toNat, advance 1 s) := if_pos h

theorem fetch_of_not_inMemory (c : Byte) {s : State} (h : ¬ s.inMemory s.ip) :
    fetch c s = .error (raise .memoryFault c 0 s.ip s) := if_neg h

/-- A fetch succeeds inside memory, advancing IP by one, or raises MemoryFault with IP where it was. -/
theorem fetch_cases (c : Byte) (s : State) :
    (s.inMemory s.ip ∧ fetch c s = .ok (s.byteAt s.ip.toNat, advance 1 s)) ∨
    (¬ s.inMemory s.ip ∧ fetch c s = .error (raise .memoryFault c 0 s.ip s)) := by
  by_cases h : s.inMemory s.ip
  · exact .inl ⟨h, fetch_of_inMemory c h⟩
  · exact .inr ⟨h, fetch_of_not_inMemory c h⟩

@[simp] theorem advance_inMemory (n : Nat) (s : State) (a : Word) :
    (advance n s).inMemory a ↔ s.inMemory a := Iff.rfl

theorem advance_holds (n : Nat) (s : State) (a : Word) (bs : List Byte) :
    (advance n s).holds a bs ↔ s.holds a bs := by
  induction bs generalizing a with
  | nil => exact Iff.rfl
  | cons b bs ih => simp [State.holds, ih]

/-- Each of the bytes that stand in memory at `a` lies inside memory. -/
theorem holds_inMemory {s : State} {a : Word} {bs : List Byte} (h : s.holds a bs) {k : Nat}
    (hk : k < bs.length) : s.inMemory (a + BitVec.ofNat 16 k) := by
  induction bs generalizing a k with
  | nil => simp at hk
  | cons b bs ih =>
    cases k with
    | zero => simpa using h.1
    | succ k =>
      have := ih h.2.2 (k := k) (by simpa using hk)
      rwa [BitVec.add_assoc, show (1 : Word) = BitVec.ofNat 16 1 from rfl, ← BitVec.ofNat_add,
        Nat.add_comm 1 k] at this

theorem holds_append {s : State} {a : Word} {bs cs : List Byte} :
    s.holds a (bs ++ cs) ↔ s.holds a bs ∧ s.holds (a + BitVec.ofNat 16 bs.length) cs := by
  induction bs generalizing a with
  | nil => simp [State.holds]
  | cons b bs ih =>
    simp only [List.cons_append, State.holds, ih, List.length_cons]
    rw [BitVec.add_assoc, show (1 : Word) = BitVec.ofNat 16 1 from rfl, ← BitVec.ofNat_add,
      Nat.add_comm 1 bs.length]
    tauto

/-- Operand bytes that stand in memory at IP are fetched, in order, and IP moves past them. -/
theorem fetchOperands_of_holds (c : Byte) (bs : List Byte) {s : State} (h : s.holds s.ip bs) :
    fetchOperands c bs.length s = .ok (bs, advance bs.length s) := by
  induction bs generalizing s with
  | nil => simp [fetchOperands]
  | cons b bs ih =>
    obtain ⟨hin, hb, hrest⟩ := h
    have hrest' : (advance 1 s).holds (advance 1 s).ip bs := by rwa [advance_holds]
    rw [List.length_cons, fetchOperands, fetch_of_inMemory c hin]
    simp [ih hrest', hb, Nat.add_comm]

/-- Fetching `n` operands either gets `n` bytes that stand in memory at IP and moves IP past them, or
raises MemoryFault at the first of them that lies outside memory, IP having moved up to it. -/
theorem fetchOperands_cases (c : Byte) (n : Nat) (s : State) :
    (∃ bs, bs.length = n ∧ s.holds s.ip bs ∧ fetchOperands c n s = .ok (bs, advance n s)) ∨
    (∃ k, k < n ∧ (∀ j, j < k → s.inMemory (advance j s).ip) ∧ ¬ s.inMemory (advance k s).ip ∧
      fetchOperands c n s = .error (raise .memoryFault c 0 (advance k s).ip (advance k s))) := by
  induction n generalizing s with
  | zero => exact .inl ⟨[], rfl, trivial, by simp [fetchOperands]⟩
  | succ n ih =>
    rcases fetch_cases c s with ⟨hin, hf⟩ | ⟨hout, hf⟩
    · rcases ih (advance 1 s) with ⟨bs, hl, hh, hb⟩ | ⟨k, hk, hin', hout, hb⟩
      · refine .inl ⟨s.byteAt s.ip.toNat :: bs, by simp [hl], ⟨hin, rfl, ?_⟩, ?_⟩
        · rwa [advance_holds] at hh
        · rw [fetchOperands, hf]; simp [hb, Nat.add_comm]
      · refine .inr ⟨k + 1, by omega, fun j hj => ?_, ?_, ?_⟩
        · cases j with
          | zero => simpa using hin
          | succ j => simpa [Nat.add_comm] using hin' j (by omega)
        · simpa [Nat.add_comm] using hout
        · rw [fetchOperands, hf]; simp [hb, Nat.add_comm]
    · exact .inr ⟨0, by omega, nofun, by simpa using hout, by rw [fetchOperands, hf]; simp⟩

/-! ## Register operands -/

theorem regOfByte_eq_none {v : Byte} : regOfByte v = none ↔ 5 < v.toNat := by
  unfold regOfByte
  split <;> simp_all
  omega

theorem regOfByte_isSome {v : Byte} : (regOfByte v).isSome = validRegByte v := by
  unfold regOfByte validRegByte
  split <;> simp_all
  omega

theorem exists_regOfByte {v : Byte} (h : v.toNat ≤ 5) : ∃ k, regOfByte v = some k := by
  cases e : regOfByte v with
  | some k => exact ⟨k, rfl⟩
  | none => have := regOfByte_eq_none.1 e; omega

theorem checkReg_some {op v : Byte} {k : GReg} (s : State) (h : regOfByte v = some k) :
    checkReg op v s = .ok k := by simp [checkReg, h]

theorem checkReg_none {op v : Byte} (s : State) (h : regOfByte v = none) :
    checkReg op v s = .error (raise .invalidRegister op v s.ip s) := by simp [checkReg, h]

/-! ## The two instruction shapes -/

theorem onReg_of_some {op r : Byte} {k : GReg} (alu : Word → Word) (s : State) (h : regOfByte r = some k) :
    onReg op r alu s = .next (writeReg k (alu (s.reg k)) s) := by
  rw [onReg, checkReg_some s h]

theorem onRegs_of_some {op i₁ i₂ : Byte} {j k : GReg} (act : GReg → GReg → State) (s : State)
    (h₁ : regOfByte i₁ = some j) (h₂ : regOfByte i₂ = some k) :
    onRegs op i₁ i₂ act s = .next (act j k) := by
  rw [onRegs, checkReg_some s h₁]; simp [checkReg_some s h₂]

/-- Format RI: the write, or InvalidRegister for the operand. -/
theorem onReg_cases (op r : Byte) (alu : Word → Word) (s : State) :
    (∃ k, regOfByte r = some k ∧ onReg op r alu s = .next (writeReg k (alu (s.reg k)) s)) ∨
    (regOfByte r = none ∧ onReg op r alu s = .next (raise .invalidRegister op r s.ip s)) := by
  cases h : regOfByte r with
  | some k => exact .inl ⟨k, rfl, onReg_of_some alu s h⟩
  | none => exact .inr ⟨rfl, by rw [onReg, checkReg_none s h]⟩

/-- Format RR: the action, or InvalidRegister for the first bad operand. -/
theorem onRegs_cases (op i₁ i₂ : Byte) (act : GReg → GReg → State) (s : State) :
    (∃ j k, regOfByte i₁ = some j ∧ regOfByte i₂ = some k ∧ onRegs op i₁ i₂ act s = .next (act j k)) ∨
    (regOfByte i₁ = none ∧ onRegs op i₁ i₂ act s = .next (raise .invalidRegister op i₁ s.ip s)) ∨
    (∃ j, regOfByte i₁ = some j ∧ regOfByte i₂ = none ∧
      onRegs op i₁ i₂ act s = .next (raise .invalidRegister op i₂ s.ip s)) := by
  cases h₁ : regOfByte i₁ with
  | none => exact .inr (.inl ⟨rfl, by rw [onRegs, checkReg_none s h₁]⟩)
  | some j =>
    cases h₂ : regOfByte i₂ with
    | none => exact .inr (.inr ⟨j, rfl, rfl, by rw [onRegs, checkReg_some s h₁]; simp [checkReg_none s h₂]⟩)
    | some k => exact .inl ⟨j, k, rfl, rfl, onRegs_of_some act s h₁ h₂⟩

/-! ## The ends of a transition -/

theorem completeExecute_running {t : State} (h : t.status = .running) :
    completeExecute (.next t) = .next t := by simp [completeExecute, h]

theorem completeExecute_ended {t : State} (h : t.status ≠ .running) :
    completeExecute (.next t) = .next (deliver (.ended t.status) t) := by simp [completeExecute, h]

theorem step_of_running {s : State} (h : s.status = .running) :
    step s = completeExecute (instructionCycle s) := by simp [step, transition, h]

theorem step_of_not_running {s : State} (h : s.status ≠ .running) : step s = .next (hostTurn s) := by
  simp [step, transition, h]

/-! ## The ALU as arithmetic on numbers (R82, R83, R84) -/

theorem aluAdd_toNat (x y : Word) : (aluAdd x y).toNat = (x.toNat + y.toNat) % 65536 := by
  simp [aluAdd, BitVec.toNat_add]

theorem aluSub_toNat (x y : Word) : (aluSub x y).toNat = (x.toNat + 65536 - y.toNat) % 65536 := by
  have := y.isLt
  simp only [aluSub, BitVec.toNat_sub]
  congr 1; omega

end Sys2Proof.Machine
end

