-- ==== Sys2Proof/Laws/Cycle.lean ====
section
/-! SUPPORT. What an instruction, an instruction cycle and a host command can do, said once: the
inversion lemmas from which every claim about `step` follows. -/

namespace Sys2Proof.Machine

/-- An instruction that executes does one of four things: it writes one general register, it ORs into
FLAGS, it halts, or it raises InvalidRegister. -/
theorem exec_cases (i : Instr) (s : State) :
    (∃ k v, i ≠ .ret ∧ i.wellFormed = true ∧ exec i s = .next (writeReg k v s)) ∨
    (∃ a b j k, i = .test a b ∧ regOfByte a = some j ∧ regOfByte b = some k ∧
      exec i s = .next (writeFlags (testFlags (s.reg j) (s.reg k) s.flags) s)) ∨
    (i = .ret ∧ exec i s = .next (haltRun s)) ∨
    (∃ v : Byte, 5 < v.toNat ∧ v ∈ operandBytes i ∧ i ≠ .ret ∧ i.wellFormed = false ∧
      exec i s = .next (raise .invalidRegister (opcodeOf i) v s.ip s)) := by
  have valid {v k} (h : regOfByte v = some k) : validRegByte v = true := by
    rw [← regOfByte_isSome, h]; rfl
  have invalid {v} (h : regOfByte v = none) : validRegByte v = false := by
    rw [← regOfByte_isSome, h]; rfl
  cases i with
  | movImm r imm =>
    rcases onReg_cases opMovImm r (fun _ => aluPass imm) s with ⟨k, h, e⟩ | ⟨h, e⟩
    · exact .inl ⟨k, _, nofun, valid h, e⟩
    · exact .inr (.inr (.inr ⟨r, regOfByte_eq_none.1 h, by simp [operandBytes], nofun, invalid h, e⟩))
  | add r imm =>
    rcases onReg_cases opAdd r (fun v => aluAdd v imm) s with ⟨k, h, e⟩ | ⟨h, e⟩
    · exact .inl ⟨k, _, nofun, valid h, e⟩
    · exact .inr (.inr (.inr ⟨r, regOfByte_eq_none.1 h, by simp [operandBytes], nofun, invalid h, e⟩))
  | sub r imm =>
    rcases onReg_cases opSub r (fun v => aluSub v imm) s with ⟨k, h, e⟩ | ⟨h, e⟩
    · exact .inl ⟨k, _, nofun, valid h, e⟩
    · exact .inr (.inr (.inr ⟨r, regOfByte_eq_none.1 h, by simp [operandBytes], nofun, invalid h, e⟩))
  | movReg d src =>
    rcases onRegs_cases opMovReg d src (fun j k => writeReg j (aluPass (s.reg k)) s) s with
      ⟨j, k, h₁, h₂, e⟩ | ⟨h, e⟩ | ⟨j, h₁, h, e⟩
    · exact .inl ⟨j, _, nofun, by simp [Instr.wellFormed, valid h₁, valid h₂], e⟩
    · exact .inr (.inr (.inr ⟨d, regOfByte_eq_none.1 h, by simp [operandBytes], nofun,
        by simp [Instr.wellFormed, invalid h], e⟩))
    · exact .inr (.inr (.inr ⟨src, regOfByte_eq_none.1 h, by simp [operandBytes], nofun,
        by simp [Instr.wellFormed, invalid h], e⟩))
  | test a b =>
    rcases onRegs_cases opTest a b (fun j k => writeFlags (testFlags (s.reg j) (s.reg k) s.flags) s) s with
      ⟨j, k, h₁, h₂, e⟩ | ⟨h, e⟩ | ⟨j, h₁, h, e⟩
    · exact .inr (.inl ⟨a, b, j, k, rfl, h₁, h₂, e⟩)
    · exact .inr (.inr (.inr ⟨a, regOfByte_eq_none.1 h, by simp [operandBytes], nofun,
        by simp [Instr.wellFormed, invalid h], e⟩))
    · exact .inr (.inr (.inr ⟨b, regOfByte_eq_none.1 h, by simp [operandBytes], nofun,
        by simp [Instr.wellFormed, invalid h], e⟩))
  | ret => exact .inr (.inr (.inl ⟨rfl, rfl⟩))

/-- A valid opcode and its operand bytes are the encoding of one instruction, which the decoder
answers. -/
theorem decode_complete {op : Byte} {bs : List Byte} (hl : bs.length = operandCount op)
    (hv : op ∈ [opMovImm, opAdd, opSub, opMovReg, opTest, opRet]) :
    ∃ i, encode i = op :: bs ∧ decode (op :: bs) = .ok i [] := by
  have three {l : List Byte} (h : l.length = 3) : ∃ r lo hi, l = [r, lo, hi] := by
    match l, h with | [r, lo, hi], _ => exact ⟨r, lo, hi, rfl⟩
  have two {l : List Byte} (h : l.length = 2) : ∃ x y, l = [x, y] := by
    match l, h with | [x, y], _ => exact ⟨x, y, rfl⟩
  simp only [List.mem_cons, List.not_mem_nil, or_false] at hv
  rcases hv with rfl | rfl | rfl | rfl | rfl | rfl
  · obtain ⟨r, lo, hi, rfl⟩ := three hl
    exact ⟨.movImm r (imm16 lo hi), by simp [encode, operandBytes, opcodeOf, immLo_imm16, immHi_imm16], by simp [decodeRI]⟩
  · obtain ⟨r, lo, hi, rfl⟩ := three hl
    exact ⟨.add r (imm16 lo hi), by simp [encode, operandBytes, opcodeOf, immLo_imm16, immHi_imm16], by simp [decodeRI]⟩
  · obtain ⟨r, lo, hi, rfl⟩ := three hl
    exact ⟨.sub r (imm16 lo hi), by simp [encode, operandBytes, opcodeOf, immLo_imm16, immHi_imm16], by simp [decodeRI]⟩
  · obtain ⟨x, y, rfl⟩ := two hl
    exact ⟨.movReg x y, rfl, by simp [decodeRR]⟩
  · obtain ⟨x, y, rfl⟩ := two hl
    exact ⟨.test x y, rfl, by simp [decodeRR]⟩
  · obtain rfl : bs = [] := List.length_eq_zero_iff.1 hl
    exact ⟨.ret, rfl, by simp⟩

/-- The four ways `Step()` (R72) goes: MemoryFault at the opcode fetch; InvalidOpcode; MemoryFault at an
operand fetch; or an instruction whose bytes stand in memory at IP, executed with IP past them. -/
theorem instructionCycle_cases (s : State) :
    (¬ s.inMemory s.ip ∧ instructionCycle s = .next (raise .memoryFault 0 0 s.ip s)) ∨
    (∃ op, s.inMemory s.ip ∧ s.byteAt s.ip.toNat = op ∧
      op ∉ [opMovImm, opAdd, opSub, opMovReg, opTest, opRet] ∧
      instructionCycle s = .next (raise .invalidOpcode op 0 (advance 1 s).ip (advance 1 s))) ∨
    (∃ op k, s.inMemory s.ip ∧ s.byteAt s.ip.toNat = op ∧ 1 ≤ k ∧ k ≤ operandCount op ∧
      (∀ j, j < k → s.inMemory (advance j s).ip) ∧ ¬ s.inMemory (advance k s).ip ∧
      instructionCycle s = .next (raise .memoryFault op 0 (advance k s).ip (advance k s))) ∨
    (∃ i, s.holds s.ip (encode i) ∧ instructionCycle s = exec i (advance (encode i).length s)) := by
  rcases fetch_cases 0 s with ⟨hin, hf⟩ | ⟨hout, hf⟩
  · by_cases hv : s.byteAt s.ip.toNat ∈ [opMovImm, opAdd, opSub, opMovReg, opTest, opRet]
    · rcases fetchOperands_cases (s.byteAt s.ip.toNat) (operandCount (s.byteAt s.ip.toNat)) (advance 1 s) with
        ⟨bs, hl, hh, hb⟩ | ⟨k, hk, hin', hout, hb⟩
      · obtain ⟨i, he, hd⟩ := decode_complete hl hv
        refine .inr (.inr (.inr ⟨i, ?_, ?_⟩))
        · rw [he]; exact ⟨hin, rfl, by rwa [advance_holds] at hh⟩
        · rw [instructionCycle, hf]
          simp [hb, hd, he, hl, Nat.add_comm]
      · refine .inr (.inr (.inl ⟨_, k + 1, hin, rfl, by omega, by omega, fun j hj => ?_, ?_, ?_⟩))
        · cases j with
          | zero => simpa using hin
          | succ j => simpa [Nat.add_comm] using hin' j (by omega)
        · simpa [Nat.add_comm] using hout
        · rw [instructionCycle, hf]; simp [hb, Nat.add_comm]
    · refine .inr (.inl ⟨_, hin, rfl, hv, ?_⟩)
      rw [instructionCycle, hf]
      simp [operandCount_of_invalid hv, fetchOperands, decode_of_invalid [] hv]
  · exact .inl ⟨hout, by rw [instructionCycle, hf]⟩

theorem encode_length_le (i : Instr) : (encode i).length ≤ 4 := by
  cases i <;> simp [encode, operandBytes]

theorem operandCount_le (op : Byte) : operandCount op ≤ 3 := by
  unfold operandCount
  split
  · omega
  · split <;> omega

/-- The step of a run that ends in a fault: the fault's state, with FAULTED handed to the host. -/
theorem step_of_raise {s u : State} {kind : FaultKind} {op index : Byte} {pos : Word}
    (hr : s.status = .running) (h : instructionCycle s = .next (raise kind op index pos u)) :
    step s = .next (deliver (.ended .faulted) (raise kind op index pos u)) := by
  rw [step_of_running hr, h, completeExecute_ended (by simp)]; rfl

/-- What one step of a run can do (R71, R72): fault at the opcode fetch, on the opcode, at an operand
fetch or on a register operand; write one general register; TEST; or RET. -/
theorem step_running_cases {s : State} (hr : s.status = .running) :
    (¬ s.inMemory s.ip ∧
      step s = .next (deliver (.ended .faulted) (raise .memoryFault 0 0 s.ip s))) ∨
    (∃ op, s.inMemory s.ip ∧ s.byteAt s.ip.toNat = op ∧
      op ∉ [opMovImm, opAdd, opSub, opMovReg, opTest, opRet] ∧
      step s = .next (deliver (.ended .faulted) (raise .invalidOpcode op 0 (advance 1 s).ip (advance 1 s)))) ∨
    (∃ op k, s.inMemory s.ip ∧ s.byteAt s.ip.toNat = op ∧ 1 ≤ k ∧ k ≤ operandCount op ∧
      (∀ j, j < k → s.inMemory (advance j s).ip) ∧ ¬ s.inMemory (advance k s).ip ∧
      step s = .next (deliver (.ended .faulted) (raise .memoryFault op 0 (advance k s).ip (advance k s)))) ∨
    (∃ i v, s.holds s.ip (encode i) ∧ i ≠ .ret ∧ i.wellFormed = false ∧ v ∈ operandBytes i ∧ 5 < v.toNat ∧
      step s = .next (deliver (.ended .faulted)
        (raise .invalidRegister (opcodeOf i) v (advance (encode i).length s).ip (advance (encode i).length s)))) ∨
    (∃ i k v, i ≠ .ret ∧ i.wellFormed = true ∧ s.holds s.ip (encode i) ∧
      step s = .next (writeReg k v (advance (encode i).length s))) ∨
    (∃ a b j k, s.holds s.ip (encode (.test a b)) ∧ regOfByte a = some j ∧ regOfByte b = some k ∧
      step s = .next (writeFlags (testFlags (s.reg j) (s.reg k) s.flags) (advance 3 s))) ∨
    (s.holds s.ip (encode .ret) ∧ step s = .next (deliver (.ended .halted) (haltRun (advance 1 s)))) := by
  rcases instructionCycle_cases s with ⟨h, e⟩ | ⟨op, h, hb, hv, e⟩ | ⟨op, k, h, hb, h₁, hk, hin, hout, e⟩ | ⟨i, hh, e⟩
  · exact .inl ⟨h, step_of_raise hr e⟩
  · exact .inr (.inl ⟨op, h, hb, hv, step_of_raise hr e⟩)
  · exact .inr (.inr (.inl ⟨op, k, h, hb, h₁, hk, hin, hout, step_of_raise hr e⟩))
  · rcases exec_cases i (advance (encode i).length s) with
      ⟨k, v, hi, hw, e'⟩ | ⟨a, b, j, k, rfl, hj, hk, e'⟩ | ⟨rfl, e'⟩ | ⟨v, h5, hv, hi, hw, e'⟩
    · exact .inr (.inr (.inr (.inr (.inl ⟨i, k, v, hi, hw, hh, by
        rw [step_of_running hr, e, e', completeExecute_running (by simpa using hr)]⟩))))
    · exact .inr (.inr (.inr (.inr (.inr (.inl ⟨a, b, j, k, hh, hj, hk, by
        rw [step_of_running hr, e, e', completeExecute_running (by simpa using hr)]; rfl⟩)))))
    · exact .inr (.inr (.inr (.inr (.inr (.inr ⟨hh, by
        rw [step_of_running hr, e, e', completeExecute_ended (by simp)]; rfl⟩)))))
    · exact .inr (.inr (.inr (.inl ⟨i, v, hh, hi, hw, hv, h5, step_of_raise hr (e.trans e')⟩)))

/-- `Step()` on an instruction whose encoding stands in memory at IP executes it, IP past it. -/
theorem instructionCycle_of_holds {s : State} {i : Instr} (h : s.holds s.ip (encode i))
    (hd : decode (encode i) = .ok i []) : instructionCycle s = exec i (advance (encode i).length s) := by
  obtain ⟨hin, hb, hr⟩ := h
  have hl : operandCount (opcodeOf i) = (operandBytes i).length := by cases i <;> rfl
  have hf := fetchOperands_of_holds (opcodeOf i) (operandBytes i) (s := advance 1 s) (by rwa [advance_holds])
  rw [instructionCycle, fetch_of_inMemory 0 hin]
  rw [encode] at hd
  simp [hb, hl, hf, hd, encode, Nat.add_comm]

/-- Accepting a command: what each leaves (R118). -/
theorem accept_cases (c : Command) (s : State) :
    (c = .reset ∧ accept c s = resetCommand s) ∨
    (∃ p, c = .load p ∧ p.length ≤ s.memSize ∧ accept c s = deliver .loadOk (loadProgram p s)) ∨
    (∃ p, c = .load p ∧ s.memSize < p.length ∧ accept c s = deliver .loadTooLarge s) ∨
    (c = .execute ∧ accept c s = enterRun s) ∨
    (∃ r, c = .read r ∧ accept c s = deliver (.value (readValue r s)) s) := by
  cases c with
  | reset => exact .inl ⟨rfl, rfl⟩
  | load p =>
    by_cases h : p.length ≤ s.memSize
    · exact .inr (.inl ⟨p, rfl, h, if_pos h⟩)
    · exact .inr (.inr (.inl ⟨p, rfl, by omega, if_neg h⟩))
  | execute => exact .inr (.inr (.inr (.inl ⟨rfl, rfl⟩)))
  | read r => exact .inr (.inr (.inr (.inr ⟨r, rfl, rfl⟩)))

/-- What one step can do while no run is in progress (R118, R108): nothing, with no command pending, or
accept the oldest command. -/
theorem step_not_running_cases {s : State} (hr : s.status ≠ .running) :
    (s.pending = [] ∧ step s = .next s) ∨
    (∃ c cs, s.pending = c :: cs ∧ step s = .next (accept c { s with pending := cs })) := by
  rw [step_of_not_running hr, hostTurn]
  cases h : s.pending with
  | nil => exact .inl ⟨rfl, rfl⟩
  | cons c cs => exact .inr ⟨c, cs, rfl, rfl⟩

end Sys2Proof.Machine
end

