-- ==== Sys2Proof/Laws/PerInstr.lean ====
section
/-! SUPPORT. The families of statements about the instruction as syntax, one lemma per constructor. -/

namespace Sys2Proof.Laws

/-- The opcode alone fixes the length (R57): an instruction's encoding is its opcode byte and exactly
as many operand bytes as that opcode takes. -/
def EncodingLength.Statement (i : Instr) : Prop :=
  (encode i).head? = some (opcodeOf i) ∧ (encode i).length = 1 + operandCount (opcodeOf i)

theorem EncodingLength.movImm (r : Byte) (imm : Word) : EncodingLength.Statement (.movImm r imm) := ⟨rfl, rfl⟩
theorem EncodingLength.add (r : Byte) (imm : Word) : EncodingLength.Statement (.add r imm) := ⟨rfl, rfl⟩
theorem EncodingLength.sub (r : Byte) (imm : Word) : EncodingLength.Statement (.sub r imm) := ⟨rfl, rfl⟩
theorem EncodingLength.movReg (d s : Byte) : EncodingLength.Statement (.movReg d s) := ⟨rfl, rfl⟩
theorem EncodingLength.test (a b : Byte) : EncodingLength.Statement (.test a b) := ⟨rfl, rfl⟩
theorem EncodingLength.ret : EncodingLength.Statement .ret := ⟨rfl, rfl⟩

end Sys2Proof.Laws
end

