-- ==== Sys2Proof/Tests/Slice0.lean ====
section
/-! SUPPORT. Tests on small states, expected values from spec/95_test_vectors.md and the rules (each names
its source), and one witness for the hypotheses of every statement that has any. -/

open Sys2Proof Sys2Proof.Machine Sys2Proof.Claims

namespace Sys2Proof.Tests

/-! ## Helpers -/

/-- A core of `size` bytes after RESET, LOAD of `p` and the acceptance of EXECUTE (R120). -/
def machine (size : Nat) (p : List Byte) : State :=
  enterRun (loadProgram p (resetCommand { State.reset with memSize := size }))

/-- The step answers a next state that passes `f`. -/
def stepGives (s : State) (f : State → Bool) : Bool :=
  match step s with
  | .next t => f t
  | _ => false

/-- The host has the turn and `c` pending. -/
def host (c : Command) : State := { State.reset with pending := [c] }

/-! ## WellFormed smoke: one ill-formed instruction for each check, and the boundary that passes -/

theorem test_wellFormed_movImm : (Instr.movImm 6 0).wellFormed = false ∧ (Instr.movImm 5 0).wellFormed = true := by decide
theorem test_wellFormed_add : (Instr.add 0xFF 1).wellFormed = false ∧ (Instr.add 0 1).wellFormed = true := by decide
theorem test_wellFormed_sub : (Instr.sub 8 1).wellFormed = false ∧ (Instr.sub 5 1).wellFormed = true := by decide
theorem test_wellFormed_movReg_first : (Instr.movReg 6 0).wellFormed = false := by decide
theorem test_wellFormed_movReg_second : (Instr.movReg 0 6).wellFormed = false ∧ (Instr.movReg 5 5).wellFormed = true := by decide
theorem test_wellFormed_test_first : (Instr.test 6 0).wellFormed = false := by decide
theorem test_wellFormed_test_second : (Instr.test 0 6).wellFormed = false ∧ (Instr.test 5 0).wellFormed = true := by decide

/-! ## Decoding: each constructor from a word written out bit by bit from R56 and R58 -/

/-- R64's own example, the opcode 1011_1000. -/
theorem test_decode_movImm :
    decode [0b10111000, 0b00000000, 0b00110010, 0b00010010] = .ok (.movImm 0 0x1232) [] := by decide
theorem test_decode_add :
    decode [0b10000011, 0b00000101, 0b01000101, 0b00010101] = .ok (.add 5 0x1545) [] := by decide
theorem test_decode_sub :
    decode [0b10000100, 0b00000001, 0b00010101, 0b00100011] = .ok (.sub 1 0x2315) [] := by decide
theorem test_decode_movReg : decode [0b10001001, 0b00000010, 0b00000000] = .ok (.movReg 2 0) [] := by decide
theorem test_decode_test : decode [0b10000101, 0b00000011, 0b00000001] = .ok (.test 3 1) [] := by decide
theorem test_decode_ret : decode [0b11000011, 0b00000000] = .ok .ret [0] := by decide
/-- R59: x86's NOP is an invalid opcode here (95, O2); an operand byte short is no instruction. -/
theorem test_decode_refuses :
    decode [0x90, 0, 0, 0] = .error (.invalidOpcode 0x90) ∧ decode [0xB8, 0, 0] = .error (.truncated 0xB8) := by
  decide
/-- R64's word view, and a table word shorter than its instruction. -/
theorem test_decodeTableWord :
    decodeTableWord 32 0x123200B8 = some (.movImm 0 0x1232) ∧ decodeTableWord 8 0x85 = some (.test 0 0) ∧
      decodeTableWord 8 0xC4 = none := by decide
theorem test_encode_movImm : encode (.movImm 3 0xBEEF) = [0xB8, 0x03, 0xEF, 0xBE] := by decide

/-! ## One step of each instruction -/

/-- 95, M1. -/
theorem test_movImm_step : stepGives (machine 1024 [0xB8, 0x03, 0xEF, 0xBE]) (fun t =>
    t.reg .dx == 0xBEEF && t.ip == 4 && t.flags == 0 && t.status == .running) = true := by decide
/-- 95, M7: the third byte lies outside a memory of two. -/
theorem test_movImm_overhangs : stepGives (machine 2 [0xB8, 0x00]) (fun t =>
    t.status == .faulted && t.diag == ⟨.memoryFault, 0xB8, 0, 2⟩ && t.ip == 2 && t.sp == 1) = true := by decide
/-- 95, A2: 0xFFFF + 1 wraps to 0 and sets no flag. -/
theorem test_add_wraps : stepGives (writeReg .ax 0xFFFF (machine 1024 [0x83, 0x00, 0x01, 0x00])) (fun t =>
    t.reg .ax == 0 && t.flags == 0 && t.ip == 4) = true := by decide
/-- 95, A7. -/
theorem test_add_bad_register : stepGives (machine 1024 [0x83, 0xFF, 0x01, 0x00]) (fun t =>
    t.status == .faulted && t.diag == ⟨.invalidRegister, 0x83, 0xFF, 4⟩ && t.ip == 4) = true := by decide
/-- 95, S4: 0x000C - 0x2315 = 0xDCF7. -/
theorem test_sub_wraps : stepGives (writeReg .bx 0x000C (machine 1024 [0x84, 0x01, 0x15, 0x23])) (fun t =>
    t.reg .bx == 0xDCF7 && t.flags == 0) = true := by decide
/-- 95, S3: a zero result does not set ZF. -/
theorem test_sub_zero_sets_no_flag : stepGives (writeReg .cx 0x1234 (machine 1024 [0x84, 0x02, 0x34, 0x12])) (fun t =>
    t.reg .cx == 0 && t.flags == 0) = true := by decide
/-- 95, V1: destination first, source unaltered. -/
theorem test_movReg_copies : stepGives (writeReg .ax 0x1234 (machine 1024 [0x89, 0x05, 0x00])) (fun t =>
    t.reg .di == 0x1234 && t.reg .ax == 0x1234 && t.ip == 3) = true := by decide
/-- 95, V5: both operands invalid, the first is reported. -/
theorem test_movReg_first_bad_reported : stepGives (machine 1024 [0x89, 0x07, 0x09]) (fun t =>
    t.diag == ⟨.invalidRegister, 0x89, 0x07, 3⟩ && t.ip == 3) = true := by decide
/-- 95, T3's second TEST: NE already set, equal registers add ZF. -/
theorem test_test_accumulates : stepGives (writeFlags 2 (machine 1024 [0x85, 0x01, 0x02])) (fun t =>
    t.flags == 3 && t.ip == 3) = true := by decide
/-- 95, T2's TEST: different registers set NE alone. -/
theorem test_test_not_equal : stepGives (writeReg .ax 1 (machine 1024 [0x85, 0x00, 0x01])) (fun t =>
    t.flags == 2 && t.reg .ax == 1) = true := by decide
/-- 95, R-2: RET as the only byte of memory; IP = MEM_SIZE is legal; EXECUTE answers HALTED. -/
theorem test_ret_halts : stepGives (machine 1 [0xC3]) (fun t =>
    t.status == .halted && t.ip == 1 && t.sp == 0 && t.diag == Diag.clear && t.replies == [.ended .halted]) = true := by
  decide

/-! ## Faults -/

/-- 95, O4: one past the opcode, no operand fetched. -/
theorem test_invalid_opcode : stepGives (machine 1024 [0xB9, 1, 2, 3]) (fun t =>
    t.status == .faulted && t.diag == ⟨.invalidOpcode, 0xB9, 0, 1⟩ && t.ip == 1) = true := by decide
/-- 95, F1's second step: the opcode fetch at MEM_SIZE. -/
theorem test_opcode_fetch_fault : stepGives { machine 4 [0xB8, 0, 1, 0] with ip := 4 } (fun t =>
    t.diag == ⟨.memoryFault, 0, 0, 4⟩ && t.ip == 4) = true := by decide
/-- 95, PR1: an overhanging instruction with a bad register reports MemoryFault. -/
theorem test_priority : stepGives (machine 3 [0xB8, 0x07, 0x00]) (fun t =>
    t.diag == ⟨.memoryFault, 0xB8, 0, 3⟩ && t.ip == 3) = true := by decide
/-- 95, E5: at MEM_SIZE 65536 IP wraps. -/
theorem test_ip_wraps : stepGives
    { machine 65536 [] with mem := [(0xFFFF, 0xC3)], ip := 0xFFFF } (fun t =>
    t.status == .halted && t.ip == 0) = true := by decide

/-! ## The host's commands, memory, and withFetchWord -/

theorem test_reset_command_at_reset : resetCommand State.reset = State.reset := by decide
/-- 95, LD2. -/
theorem test_oversize_load : stepGives
    { State.reset with memSize := 4, mem := [(0, 0xC3)], ip := 2, pending := [.load [1, 2, 3, 4, 5]] } (fun t =>
    t.mem == [(0, 0xC3)] && t.ip == 2 && t.replies == [.loadTooLarge]) = true := by decide
/-- 95, LD4: LOAD keeps STATUS, DIAG and the registers. -/
theorem test_load : stepGives
    { writeReg .dx 0xBEEF State.reset with
      ip := 7, status := .faulted, diag := ⟨.invalidRegister, 0x89, 7, 7⟩, pending := [.load [0xC3]] } (fun t =>
    t.mem == [(0, 0xC3)] && t.ip == 0 && t.reg .dx == 0xBEEF && t.status == .faulted &&
      t.diag == ⟨.invalidRegister, 0x89, 7, 7⟩ && t.replies == [.loadOk]) = true := by decide
/-- R70. -/
theorem test_execute : stepGives { machine 1024 [] with status := .halted, ip := 5, pending := [.execute] } (fun t =>
    t.status == .running && t.ip == 5 && t.pending == []) = true := by decide
/-- R119, R28: STATUS reads as its code. -/
theorem test_read_status : stepGives { State.reset with status := .faulted, pending := [.read .status] } (fun t =>
    t.replies == [.value (.status 3)] && t.status == .faulted) = true := by decide
/-- A byte no load has written is INIT_MEM's, whatever that is (R32). -/
theorem test_unloaded_byte : State.reset.byteAt 7 = Config.initMem 7 := rfl
theorem test_write_sorted : Memory.write [(2, 9), (5, 1)] 4 7 = [(2, 9), (4, 7), (5, 1)] := by decide
theorem test_withFetchWord_runs : stepGives (State.reset.withFetchWord 32 0x123203B8) (fun t =>
    t.reg .dx == 0x1232 && t.ip == 4) = true := by decide
/-- Near the top of memory the instruction is placed at 0, where it fits. -/
theorem test_withFetchWord_fits : stepGives (({ State.reset with ip := 1022 } : State).withFetchWord 8 0xC3) (fun t =>
    t.status == .halted && t.ip == 1) = true := by decide

/-! ## Witnesses: concrete states that meet the hypotheses of each statement -/

theorem witness_OpcodeFixesLength : InvalidOpcode (0x00 : Byte).toNat ∧ InvalidOpcode (0xFF : Byte).toNat := by
  unfold InvalidOpcode; decide

theorem witness_ResetCommandWholeState :
    Accepts { State.reset with flags := 3, pending := [.reset, .reset] } .reset := by unfold Accepts; decide

/-- The second clause: after the first RESET a second is pending. -/
theorem witness_ResetCommandWholeState_again :
    stepGives { State.reset with flags := 3, pending := [.reset, .reset] } (fun t =>
      t.status != .running && t.pending.head? == some .reset) = true := by decide

/-- MovImmWritesOneRegister, AddWrapsWithoutFlags, SubWrapsWithoutFlags: both ends of 0..5. -/
theorem witness_RegImmEffect : regOfByte 0 = some .ax ∧ regOfByte 5 = some .di := by decide

/-- MovRegCopies and TestSetsOneFlag: two registers, and one register twice. -/
theorem witness_MovRegCopies : regOfByte 5 = some .di ∧ regOfByte 0 = some .ax := by decide
theorem witness_TestSetsOneFlag : regOfByte 3 = some .dx ∧ regOfByte 4 = some .si := by decide

theorem witness_RegImmTrapsOnBadRegister : 5 < (6 : Byte).toNat ∧ 5 < (0xFF : Byte).toNat := by decide
theorem witness_RegRegTrapsOnBadRegister :
    (5 < (6 : Byte).toNat ∨ 5 < (0 : Byte).toNat) ∧ (5 < (5 : Byte).toNat ∨ 5 < (6 : Byte).toNat) := by decide
theorem witness_SubIsAddOfComplement :
    (5 : Byte).toNat ≤ 5 ∧ (1 : Word) ≠ 0 ∧ (0xFFFF : Word).toNat = 65536 - (1 : Word).toNat := by decide

/-- MovImmStep, AddStep, SubStep: each operand fetch that can fault. -/
theorem witness_RegImmRule_fetch_faults : ∀ op ∈ [(0xB8 : Byte), 0x83, 0x84],
    (AtOpcode (machine 1 [op]) op ∧ ¬ (machine 1 [op]).inMemory 1) ∧
    (AtOpcode (machine 2 [op, 0]) op ∧ (machine 2 [op, 0]).inMemory 1 ∧ ¬ (machine 2 [op, 0]).inMemory 2) ∧
    (AtOpcode (machine 3 [op, 0, 0]) op ∧ (machine 3 [op, 0, 0]).inMemory 1 ∧
      (machine 3 [op, 0, 0]).inMemory 2 ∧ ¬ (machine 3 [op, 0, 0]).inMemory 3) := by
  unfold AtOpcode; decide

/-- MovImmStep, AddStep, SubStep: the first bad register byte, 6. -/
theorem witness_RegImmRule_bad_register : ∀ op ∈ [(0xB8 : Byte), 0x83, 0x84],
    AtOpcode (machine 4 [op, 6, 1, 0]) op ∧ (machine 4 [op, 6, 1, 0]).holds 1 [6, 1, 0] ∧ 5 < (6 : Byte).toNat := by
  unfold AtOpcode; simp only [State.holds]; decide

/-- MovImmStep, AddStep, SubStep: the last good register byte, 5, with the largest immediate. -/
theorem witness_RegImmRule_completes : ∀ op ∈ [(0xB8 : Byte), 0x83, 0x84],
    AtOpcode (machine 4 [op, 5, 0xFF, 0xFF]) op ∧
    (machine 4 [op, 5, 0xFF, 0xFF]).holds 1 [5, 0xFF, 0xFF] ∧ regOfByte 5 = some .di ∧
    (0xFFFF : Word).toNat = (0xFF : Byte).toNat + 256 * (0xFF : Byte).toNat := by
  unfold AtOpcode; simp only [State.holds]; decide

/-- MovRegStep, TestStep: each operand fetch that can fault. -/
theorem witness_RegRegRule_fetch_faults : ∀ op ∈ [(0x89 : Byte), 0x85],
    (AtOpcode (machine 1 [op]) op ∧ ¬ (machine 1 [op]).inMemory 1) ∧
    (AtOpcode (machine 2 [op, 0]) op ∧ (machine 2 [op, 0]).inMemory 1 ∧ ¬ (machine 2 [op, 0]).inMemory 2) := by
  unfold AtOpcode; decide

/-- MovRegStep, TestStep: a bad first operand, a bad second, and two good ones at the ends of 0..5. -/
theorem witness_RegRegRule_bad_first : ∀ op ∈ [(0x89 : Byte), 0x85],
    AtOpcode (machine 3 [op, 6, 0]) op ∧ (machine 3 [op, 6, 0]).holds 1 [6, 0] ∧ 5 < (6 : Byte).toNat := by
  unfold AtOpcode; simp only [State.holds]; decide
theorem witness_RegRegRule_bad_second : ∀ op ∈ [(0x89 : Byte), 0x85],
    AtOpcode (machine 3 [op, 5, 6]) op ∧ (machine 3 [op, 5, 6]).holds 1 [5, 6] ∧
    (5 : Byte).toNat ≤ 5 ∧ 5 < (6 : Byte).toNat := by
  unfold AtOpcode; simp only [State.holds]; decide
theorem witness_RegRegRule_completes : ∀ op ∈ [(0x89 : Byte), 0x85],
    AtOpcode (machine 3 [op, 5, 0]) op ∧ (machine 3 [op, 5, 0]).holds 1 [5, 0] ∧
    regOfByte 5 = some .di ∧ regOfByte 0 = some .ax := by
  unfold AtOpcode; simp only [State.holds]; decide

theorem witness_RetStep : AtOpcode (machine 1 [0xC3]) 0xC3 := by unfold AtOpcode; decide

theorem witness_InvalidOpcodeStep :
    (AtOpcode (machine 1 [0x82]) 0x82 ∧ InvalidOpcode (0x82 : Byte).toNat) ∧
    (AtOpcode (machine 1 [0x83]) 0x83 ∧ ¬ InvalidOpcode (0x83 : Byte).toNat) := by
  unfold AtOpcode InvalidOpcode; decide

theorem witness_OpcodeFetchFault :
    ({ machine 8 [] with ip := 8 } : State).status = .running ∧
    ¬ ({ machine 8 [] with ip := 8 } : State).inMemory 8 := by decide

/-- The second clause: a core of 65536 bytes whose step faults (on an invalid opcode). -/
theorem witness_OpcodeFetchFault_full : (machine 65536 [0x00]).memSize = 65536 ∧
    stepGives (machine 65536 [0x00]) (fun t => t.status == .faulted) = true := by decide

theorem witness_FetchReadsAndAdvances :
    (State.reset.ip.toNat < State.reset.memSize) ∧
    (({ State.reset with ip := 1024 } : State).memSize ≤ ({ State.reset with ip := 1024 } : State).ip.toNat) := by
  decide

theorem witness_StepRunsDecoded :
    (machine 4 [0xB8, 5, 1, 0]).status = .running ∧ decode [0xB8, 5, 1, 0] = .ok (.movImm 5 1) [] ∧
    (machine 4 [0xB8, 5, 1, 0]).holds 0 [0xB8, 5, 1, 0] := by
  simp only [State.holds]; decide

theorem witness_StepKeepsInvariant : (machine 4 [0x85, 0, 0]).Inv ∧
    stepGives (machine 4 [0x85, 0, 0]) (fun t => t.flags == 1) = true := by
  unfold State.Inv; decide

/-- Both ways FLAGS changes. -/
theorem witness_OnlyTestAndResetWriteFlags :
    stepGives (machine 4 [0x85, 0, 0]) (fun t => t.flags != (machine 4 [0x85, 0, 0]).flags) = true ∧
    stepGives { host .reset with flags := 3 } (fun t => t.flags != 3) = true := by decide

theorem witness_FlagsAccumulate : Command.reset ∉ (machine 4 [0x85, 0, 0]).pending ∧
    (writeFlags 2 (machine 4 [0x85, 0, 0])).flags.getLsbD 1 = true ∧
    stepGives (writeFlags 2 (machine 4 [0x85, 0, 0])) (fun t => t.flags == 3) = true := by decide

/-- A RESET that changes SP and BP, and a running state. -/
theorem witness_StackRegistersOnlyReset :
    Accepts { host .reset with sp := 0, bp := 1 } .reset ∧
    stepGives { host .reset with sp := 0, bp := 1 } (fun t => t.sp != 0 && t.bp != 1) = true ∧
    (machine 1 [0xC3]).status = .running := by
  unfold Accepts; decide

/-- IP changes by RESET, by LOAD (a program of exactly MEM_SIZE bytes) and in a run. -/
theorem witness_IpChangesThreeWays :
    stepGives { host .reset with ip := 9 } (fun t => t.ip != 9) = true ∧
    stepGives { host (.load [0xC3]) with memSize := 1, ip := 1 } (fun t => t.ip != 1) = true ∧
    stepGives (machine 1 [0xC3]) (fun t => t.ip != 0) = true := by decide

theorem witness_OnlyLoadWritesMemory :
    stepGives { host (.load [0xC3]) with mem := [(0, 0x83)] } (fun t => t.byteAt 0 != 0x83) = true := by decide

theorem witness_MemoryConstantDuringRun : ∃ t, Steps 0 (machine 1 [0xC3]) (machine 1 [0xC3]) ∧
    (machine 1 [0xC3]).status = .running ∧ Steps 1 (machine 1 [0xC3]) t := ⟨_, rfl, rfl, rfl⟩

theorem witness_FaultsArePrecise : (machine 1 [0x00]).status = .running ∧
    stepGives (machine 1 [0x00]) (fun t => t.status == .faulted) = true := by decide

/-- A run that goes on and one that halts; outside a run, EXECUTE and RESET. -/
theorem witness_StatusTransitions :
    stepGives (machine 4 [0x85, 0, 5]) (fun t => t.status == .running) = true ∧
    stepGives (machine 1 [0xC3]) (fun t => t.status == .halted) = true ∧
    stepGives (host .execute) (fun t => t.status != (host .execute).status) = true ∧
    stepGives { host .reset with status := .halted } (fun t => t.status != .halted) = true := by decide

/-- Both ends of the bound: IP at 0 with the largest such memory, and IP at MEM_SIZE. -/
theorem witness_RunsTerminate :
    ((machine 65535 []).status = .running ∧ (machine 65535 []).memSize ≤ 65535 ∧
      (machine 65535 []).ip.toNat ≤ (machine 65535 []).memSize) ∧
    (({ machine 8 [] with ip := 8 } : State).memSize ≤ 65535 ∧
      ({ machine 8 [] with ip := 8 } : State).ip.toNat ≤ ({ machine 8 [] with ip := 8 } : State).memSize) := by decide

theorem witness_RunWithoutRetOrFaultGoesOn : (machine 65536 [0x89, 0, 5]).status = .running ∧
    ∀ m u, m < 1 → Steps m (machine 65536 [0x89, 0, 5]) u →
      ∃ i, i ≠ .ret ∧ i.wellFormed = true ∧ u.holds u.ip (encode i) := by
  refine ⟨rfl, fun m u hm h => ⟨.movReg 0 5, nofun, rfl, ?_⟩⟩
  obtain rfl : m = 0 := by omega
  cases h
  simp only [State.holds, encode, operandBytes, opcodeOf]; decide

theorem witness_StraightLineRun : (machine 7 [0xB8, 0, 1, 0, 0x85, 0, 5]).status = .running ∧
    (∀ i ∈ [Instr.movImm 0 1, .test 0 5], i ≠ .ret ∧ i.wellFormed = true) ∧
    (machine 7 [0xB8, 0, 1, 0, 0x85, 0, 5]).holds 0 ([Instr.movImm 0 1, .test 0 5].flatMap encode) := by
  refine ⟨rfl, by decide, ?_⟩
  simp only [State.holds, encode, operandBytes, opcodeOf, List.flatMap_cons, List.flatMap_nil, List.cons_append,
    List.nil_append]
  decide

/-- Each of the three properties: its bytes stand at IP. -/
theorem witness_SourcePropertiesHold :
    (machine 5 [0xB8, 5, 1, 0, 0xC3]).holds 0 (encode (.movImm 5 1) ++ encode .ret) ∧
    (machine 9 [0xB8, 0, 1, 0, 0x83, 0, 2, 0, 0xC3]).holds 0
      (encode (.movImm 0 1) ++ encode (.add 0 2) ++ encode .ret) ∧
    (machine 9 [0xB8, 0, 1, 0, 0x84, 0, 2, 0, 0xC3]).holds 0
      (encode (.movImm 0 1) ++ encode (.sub 0 2) ++ encode .ret) := by
  simp only [State.holds, encode, operandBytes, opcodeOf, List.cons_append, List.nil_append]
  decide

/-- A memory with another byte outside the four at IP. -/
theorem witness_StepReadsOnlyBytesAtIp : (machine 8 [0xB8, 5, 1, 0]).status = .running ∧
    ∀ k, k < 4 →
      ({ machine 8 [0xB8, 5, 1, 0] with mem := [(0, 0xB8), (1, 5), (2, 1), (3, 0), (4, 9)] } : State).byteAt
        ((machine 8 [0xB8, 5, 1, 0]).ip + BitVec.ofNat 16 k).toNat =
      (machine 8 [0xB8, 5, 1, 0]).byteAt ((machine 8 [0xB8, 5, 1, 0]).ip + BitVec.ofNat 16 k).toNat := by decide

/-- NoInstructionReadsFlags and HostBlockedWhileRunning: a run in progress, a command pending. -/
theorem witness_running : ({ machine 1 [0xC3] with pending := [.reset] } : State).status = .running := rfl

theorem witness_ExecuteEntersRun : Accepts (host .execute) .execute := by unfold Accepts; decide

/-- The empty program and one of exactly MEM_SIZE bytes. -/
theorem witness_LoadWritesProgram :
    (Accepts (host (.load [])) (.load []) ∧ ([] : List Byte).length ≤ (host (.load [])).memSize) ∧
    (Accepts { host (.load [1, 2]) with memSize := 2 } (.load [1, 2]) ∧ ([1, 2] : List Byte).length ≤ 2) := by
  unfold Accepts; decide

/-- One byte too many. -/
theorem witness_OversizeLoadChangesNothing :
    Accepts { host (.load [1, 2, 3]) with memSize := 2 } (.load [1, 2, 3]) ∧ 2 < ([1, 2, 3] : List Byte).length := by
  unfold Accepts; decide

theorem witness_ReadReturnsRegister :
    ∀ r ∈ [RegName.x .di, .sp, .bp, .ip, .flags, .status, .diag], Accepts (host (.read r)) (.read r) := by
  unfold Accepts; decide

theorem witness_IdleCoreKeepsState : State.reset.status ≠ .running ∧ State.reset.pending = [] := by decide

/-- The step that ends a run and one that does not. -/
theorem witness_RunEndDeliversStatus :
    stepGives (machine 1 [0xC3]) (fun t => t.status != .running) = true ∧
    stepGives (machine 3 [0x85, 0, 0]) (fun t => t.status == .running) = true := by decide

theorem witness_ExecuteAfterMemoryFaultFaultsAgain :
    Accepts { host .execute with status := .faulted, ip := 1024 } .execute ∧
    ¬ ({ host .execute with status := .faulted, ip := 1024 } : State).inMemory 1024 := by
  unfold Accepts; decide

theorem witness_CleanLaunchState :
    ({ State.reset with pending := [.reset, .load [0xC3], .execute] } : State).status ≠ .running ∧
    ([0xC3] : List Byte).length ≤ State.reset.memSize := by decide

end Sys2Proof.Tests
end

section
/-! PROOFS. The state (spec/10_state.md): who writes FLAGS, SP and BP, and who reads SP and BP.
First the host's turn and what a command leaves unchanged; then the transformations of the state that a
step of a run cannot notice, of which overwriting SP and BP is one; then the two obligations. -/

namespace Sys2Proof.Machine

open Sys2Proof.Claims

/-! ## The host's turn (R118) -/

/-- With no run in progress a step keeps the state or carries out the oldest pending command. -/
theorem eq_or_accepts_of_step {s t : State} (hs : s.status ≠ .running) (h : step s = .next t) :
    t = s ∨ ∃ c, Accepts s c ∧ t = accept c { s with pending := s.pending.tail } := by
  rcases step_not_running_cases hs with ⟨-, e⟩ | ⟨c, cs, hp, e⟩
  · cases e.symm.trans h
    exact .inl rfl
  · cases e.symm.trans h
    exact .inr ⟨c, ⟨hs, by simp [hp]⟩, by simp [hp]⟩

theorem step_of_accepts {s : State} {c : Command} (h : Accepts s c) :
    step s = .next (accept c { s with pending := s.pending.tail }) := by
  obtain ⟨hs, hc⟩ := h
  obtain ⟨cs, hp⟩ := List.head?_eq_some_iff.1 hc
  rw [step_of_not_running hs, hostTurn, hp]
  rfl

/-- RESET alone writes FLAGS among the commands (R25). -/
theorem accept_flags_of_ne_reset {c : Command} (s : State) (h : c ≠ .reset) :
    (accept c s).flags = s.flags := by
  rcases accept_cases c s with ⟨rfl, -⟩ | ⟨p, -, -, e⟩ | ⟨p, -, -, e⟩ | ⟨-, e⟩ | ⟨r, -, e⟩
  · exact absurd rfl h
  all_goals simp [e]

/-- RESET alone writes SP and BP among the commands (R19, R20). -/
theorem accept_keepsStackRegs_of_ne_reset {c : Command} (s : State) (h : c ≠ .reset) :
    KeepsStackRegs s (accept c s) := by
  rcases accept_cases c s with ⟨rfl, -⟩ | ⟨p, -, -, e⟩ | ⟨p, -, -, e⟩ | ⟨-, e⟩ | ⟨r, -, e⟩
  · exact absurd rfl h
  all_goals simp [e, KeepsStackRegs]

/-! ## What a step of a run cannot notice

`g` touches nothing that an instruction cycle reads and commutes with everything it writes; then a step of
a run commutes with `g`. -/

/-- `g` keeps what an instruction cycle reads and commutes with each named update it makes. -/
structure UnseenByRun (g : State → State) : Prop where
  inMemory : ∀ s a, (g s).inMemory a ↔ s.inMemory a
  byteAt : ∀ s a, (g s).byteAt a = s.byteAt a
  ip : ∀ s, (g s).ip = s.ip
  reg : ∀ s j, (g s).reg j = s.reg j
  flags : ∀ s, (g s).flags = s.flags
  status : ∀ s, (g s).status = s.status
  advance : ∀ n s, advance n (g s) = g (advance n s)
  writeReg : ∀ r v s, writeReg r v (g s) = g (writeReg r v s)
  writeFlags : ∀ v s, writeFlags v (g s) = g (writeFlags v s)
  haltRun : ∀ s, haltRun (g s) = g (haltRun s)
  raise : ∀ kind op index pos s, raise kind op index pos (g s) = g (raise kind op index pos s)
  deliver : ∀ r s, deliver r (g s) = g (deliver r s)

/-- `g` applied to the next state of a result. -/
def mapNext (g : State → State) : Result → Result
  | .next t => .next (g t)
  | .fault r => .fault r
  | .refused r => .refused r

@[simp] theorem mapNext_next (g : State → State) (t : State) : mapNext g (.next t) = .next (g t) := rfl

/-- `g` applied to the state a fetch leaves, or to the one its fault leaves. -/
def mapFetched {α : Type} (g : State → State) : Except State (α × State) → Except State (α × State)
  | .ok (v, t) => .ok (v, g t)
  | .error f => .error (g f)

@[simp] theorem mapFetched_ok {α : Type} (g : State → State) (v : α) (t : State) :
    mapFetched g (.ok (v, t)) = .ok (v, g t) := rfl

@[simp] theorem mapFetched_error {α : Type} (g : State → State) (f : State) :
    mapFetched (α := α) g (.error f) = .error (g f) := rfl

section
variable {g : State → State} (hg : UnseenByRun g)
include hg

theorem UnseenByRun.fetch (c : Byte) (s : State) : fetch c (g s) = mapFetched g (fetch c s) := by
  have hin : (g s).inMemory (g s).ip ↔ s.inMemory s.ip := by rw [hg.ip, hg.inMemory]
  rcases fetch_cases c s with ⟨h, e⟩ | ⟨h, e⟩
  · rw [e, fetch_of_inMemory c (hin.2 h), hg.ip, hg.byteAt, hg.advance, mapFetched_ok]
  · rw [e, fetch_of_not_inMemory c (mt hin.1 h), hg.ip, hg.raise, mapFetched_error]

theorem UnseenByRun.fetchOperands (c : Byte) (n : Nat) (s : State) :
    fetchOperands c n (g s) = mapFetched g (fetchOperands c n s) := by
  induction n generalizing s with
  | zero => rfl
  | succ n ih =>
    rw [Machine.fetchOperands, Machine.fetchOperands, hg.fetch]
    rcases Machine.fetch c s with f | ⟨b, s₁⟩
    · rfl
    · simp only [mapFetched_ok, ih]
      rcases Machine.fetchOperands c n s₁ with f | ⟨bs, s₂⟩ <;> rfl

theorem UnseenByRun.onReg (op r : Byte) (alu : Word → Word) (s : State) :
    onReg op r alu (g s) = mapNext g (onReg op r alu s) := by
  cases h : regOfByte r with
  | some k => rw [onReg_of_some alu _ h, onReg_of_some alu _ h, hg.reg, hg.writeReg, mapNext_next]
  | none =>
    simp only [Machine.onReg, checkReg_none _ h, hg.ip, hg.raise, mapNext_next]

theorem UnseenByRun.onRegs (op i₁ i₂ : Byte) {act act' : GReg → GReg → State} (s : State)
    (hact : ∀ j k, act' j k = g (act j k)) :
    onRegs op i₁ i₂ act' (g s) = mapNext g (onRegs op i₁ i₂ act s) := by
  cases h₁ : regOfByte i₁ with
  | none => simp only [Machine.onRegs, checkReg_none _ h₁, hg.ip, hg.raise, mapNext_next]
  | some j =>
    cases h₂ : regOfByte i₂ with
    | none =>
      simp only [Machine.onRegs, checkReg_some _ h₁, checkReg_none _ h₂, hg.ip, hg.raise, mapNext_next]
    | some k => rw [onRegs_of_some _ _ h₁ h₂, onRegs_of_some _ _ h₁ h₂, hact, mapNext_next]

theorem UnseenByRun.exec (i : Instr) (s : State) : exec i (g s) = mapNext g (exec i s) := by
  cases i with
  | movImm r imm => exact hg.onReg opMovImm r (fun _ => aluPass imm) s
  | add r imm => exact hg.onReg opAdd r (fun v => aluAdd v imm) s
  | sub r imm => exact hg.onReg opSub r (fun v => aluSub v imm) s
  | movReg d src => exact hg.onRegs opMovReg d src s fun j k => by rw [hg.reg, hg.writeReg]
  | test a b => exact hg.onRegs opTest a b s fun j k => by rw [hg.reg, hg.reg, hg.flags, hg.writeFlags]
  | ret => exact congrArg Host.Outcome.next (hg.haltRun s)

theorem UnseenByRun.instructionCycle (s : State) :
    instructionCycle (g s) = mapNext g (instructionCycle s) := by
  rw [Machine.instructionCycle, Machine.instructionCycle, hg.fetch]
  rcases Machine.fetch 0 s with f | ⟨op, s₁⟩
  · rfl
  · simp only [mapFetched_ok, hg.fetchOperands]
    rcases Machine.fetchOperands op (operandCount op) s₁ with f | ⟨bs, s₂⟩
    · rfl
    · simp only [mapFetched_ok]
      cases decode (op :: bs) with
      | ok i rest => exact hg.exec i s₂
      | error e => simp only [hg.ip, hg.raise, mapNext_next]

theorem UnseenByRun.completeExecute (r : Result) :
    completeExecute (mapNext g r) = mapNext g (completeExecute r) := by
  cases r with
  | next t =>
    by_cases ht : t.status = .running
    · rw [mapNext_next, completeExecute_running ht, completeExecute_running ((hg.status t).trans ht),
        mapNext_next]
    · rw [mapNext_next, completeExecute_ended ht, completeExecute_ended (by rwa [hg.status]), hg.status,
        hg.deliver, mapNext_next]
  | fault f => rfl
  | refused f => rfl

/-- A step of a run commutes with what no instruction cycle can notice. -/
theorem UnseenByRun.step {s : State} (hs : s.status = .running) : step (g s) = mapNext g (step s) := by
  rw [step_of_running hs, step_of_running ((hg.status s).trans hs), hg.instructionCycle,
    hg.completeExecute]

end

/-! ## SP and BP in a run (R19, R20) -/

/-- SP and BP overwritten. -/
def setStackRegs (sp bp : Word) (s : State) : State := { s with sp := sp, bp := bp }

theorem unseenByRun_setStackRegs (sp bp : Word) : UnseenByRun (setStackRegs sp bp) where
  inMemory _ _ := Iff.rfl
  byteAt _ _ := rfl
  ip _ := rfl
  reg _ _ := rfl
  flags _ := rfl
  status _ := rfl
  advance _ _ := rfl
  writeReg _ _ _ := rfl
  writeFlags _ _ := rfl
  haltRun _ := rfl
  raise _ _ _ _ _ := rfl
  deliver _ _ := rfl

/-- A step of a run always has a next state (log 9). -/
theorem exists_step_of_running {s : State} (hs : s.status = .running) : ∃ t, step s = .next t := by
  rcases step_running_cases hs with ⟨-, e⟩ | ⟨_, -, -, -, e⟩ | ⟨_, _, -, -, -, -, -, -, e⟩ |
    ⟨_, _, -, -, -, -, -, e⟩ | ⟨_, _, _, -, -, -, e⟩ | ⟨_, _, _, _, -, -, -, e⟩ | ⟨-, e⟩
  all_goals exact ⟨_, e⟩

theorem step_setStackRegs {s t : State} (hs : s.status = .running) (h : step s = .next t) (sp bp : Word) :
    step (setStackRegs sp bp s) = .next (setStackRegs sp bp t) := by
  rw [(unseenByRun_setStackRegs sp bp).step hs, h, mapNext_next]

/-- Overwriting SP and BP with their own values changes nothing before the step, so by
`step_setStackRegs` nothing after it. -/
theorem step_running_keepsStackRegs {s t : State} (hs : s.status = .running) (h : step s = .next t) :
    KeepsStackRegs s t := by
  have same : step s = .next (setStackRegs s.sp s.bp t) := step_setStackRegs hs h s.sp s.bp
  have ht : t = setStackRegs s.sp s.bp t := Host.Outcome.next.inj (h.symm.trans same)
  have overwritten : KeepsStackRegs s (setStackRegs s.sp s.bp t) := ⟨rfl, rfl⟩
  rwa [← ht] at overwritten

/-! ## FLAGS in a run (R25) -/

theorem testFlags_eq (x y flags : Word) :
    testFlags x y flags = flags ||| (if x = y then 0x0001 else 0x0002) := by
  simp [testFlags, testBit, aluEqual, flagZF, flagNE]

/-- A step of a run keeps FLAGS, or it is a TEST of two valid registers that stands at IP. -/
theorem step_running_flags {s t : State} (hs : s.status = .running) (h : step s = .next t) :
    t.flags = s.flags ∨
    ∃ a b j k, s.holds s.ip (encode (.test a b)) ∧ regOfByte a = some j ∧ regOfByte b = some k ∧
      t.flags = testFlags (s.reg j) (s.reg k) s.flags := by
  rcases step_running_cases hs with ⟨-, e⟩ | ⟨_, -, -, -, e⟩ | ⟨_, _, -, -, -, -, -, -, e⟩ |
    ⟨_, _, -, -, -, -, -, e⟩ | ⟨_, _, _, -, -, -, e⟩ | ⟨a, b, j, k, hh, hj, hk, e⟩ | ⟨-, e⟩
  all_goals cases e.symm.trans h
  pick_goal 6 -- TEST
  · exact .inr ⟨a, b, j, k, hh, hj, hk, writeFlags_flags _ _⟩
  all_goals exact .inl (by simp)

/-! ## The obligations -/

/-- Settles O29: in a run by `step_running_flags`, outside one because RESET is the only command that
writes FLAGS. -/
theorem onlyTestAndResetWriteFlags : Obligations.OnlyTestAndResetWriteFlags := by
  intro s t h hne
  by_cases hs : s.status = .running
  · rcases step_running_flags hs h with hkeep | ⟨a, b, j, k, hh, hj, hk, hf⟩
    · exact absurd hkeep hne
    · exact .inr ⟨hs, a, b, j, k, hh, hj, hk, hf.trans (testFlags_eq _ _ _)⟩
  · rcases eq_or_accepts_of_step hs h with rfl | ⟨c, hc, rfl⟩
    · exact absurd rfl hne
    · by_cases hreset : c = .reset
      · subst hreset
        exact .inl ⟨hc, resetCommand_flags _⟩
      · exact absurd (accept_flags_of_ne_reset _ hreset) hne

/-- A step that changes SP or BP accepts RESET (R19, R20). -/
theorem accepts_reset_of_stackRegs_changed {s t : State} (h : step s = .next t)
    (hne : ¬ KeepsStackRegs s t) : Accepts s .reset := by
  by_cases hs : s.status = .running
  · exact absurd (step_running_keepsStackRegs hs h) hne
  · rcases eq_or_accepts_of_step hs h with rfl | ⟨c, hc, rfl⟩
    · exact absurd ⟨rfl, rfl⟩ hne
    · by_cases hreset : c = .reset
      · exact hreset ▸ hc
      · exact absurd (accept_keepsStackRegs_of_ne_reset _ hreset) hne

/-- What RESET writes to SP and BP (R19, R20, R31). -/
theorem stackRegs_of_accepts_reset {s t : State} (ha : Accepts s .reset) (h : step s = .next t) :
    t.sp.toNat = (s.memSize - 1) % 65536 ∧ t.bp = 0 := by
  cases (step_of_accepts ha).symm.trans h
  exact ⟨BitVec.toNat_ofNat _ _, rfl⟩

/-- Settles O31: the four clauses are `accepts_reset_of_stackRegs_changed`,
`stackRegs_of_accepts_reset`, `step_setStackRegs` and READ's definition (R119). -/
theorem stackRegistersOnlyReset : Obligations.StackRegistersOnlyReset := by
  refine ⟨fun s t h hne => ?_, fun s t => stackRegs_of_accepts_reset, fun s sp bp hs => ?_,
    fun s => ⟨rfl, rfl⟩⟩
  · refine accepts_reset_of_stackRegs_changed h fun ⟨hsp, hbp⟩ => ?_
    exact hne.elim (· hsp) (· hbp)
  · obtain ⟨t, h⟩ := exists_step_of_running hs
    exact ⟨t, h, step_setStackRegs hs h sp bp⟩

end Sys2Proof.Machine
end

section
/-! PROOFS. Encoding (spec/30_encoding.md): the ranges R59 lists are the bytes outside the opcode map; from
that the lengths of R57 and the step on an invalid opcode (R90), and from the decoder's answer on an
encoding the words written out in R64. -/

namespace Sys2Proof

open Sys2Proof.Claims

/-- The ranges R59 lists hold exactly the bytes outside the opcode map of R58. -/
theorem invalidOpcode_iff {op : Byte} :
    InvalidOpcode op.toNat ↔ op ∉ [opMovImm, opAdd, opSub, opMovReg, opTest, opRet] := by
  have byte := op.isLt
  simp only [InvalidOpcode, List.mem_cons, List.not_mem_nil, or_false, BitVec.toNat_eq, opMovImm, opAdd,
    opSub, opMovReg, opTest, opRet, BitVec.reduceToNat]
  omega

/-- Decoding undoes encoding, whatever bytes follow. -/
theorem decode_encode (i : Instr) (rest : List Byte) : decode (encode i ++ rest) = .ok i rest := by
  cases i with
  | movImm r imm => simp [encode, opcodeOf, operandBytes, decodeRI, imm16_immLo_immHi]
  | add r imm => simp [encode, opcodeOf, operandBytes, decodeRI, imm16_immLo_immHi]
  | sub r imm => simp [encode, opcodeOf, operandBytes, decodeRI, imm16_immLo_immHi]
  | movReg d s => simp [encode, opcodeOf, operandBytes, decodeRR]
  | test a b => simp [encode, opcodeOf, operandBytes, decodeRR]
  | ret => simp [encode, opcodeOf, operandBytes]

/-- A table word whose bytes begin with an encoding reads as that instruction. -/
theorem decodeTableWord_of_encode {nbits w : Nat} {i : Instr} {rest : List Byte}
    (h : tableBytes nbits w = encode i ++ rest) : decodeTableWord nbits w = some i := by
  rw [decodeTableWord, h, decode_encode]

end Sys2Proof

namespace Sys2Proof.Machine

open Sys2Proof.Claims

/-- An invalid opcode ends the cycle after its own fetch: `operandCount_of_invalid` leaves nothing more to
fetch (R59, R90). -/
theorem instructionCycle_of_invalid {s : State} {op : Byte} (hin : s.inMemory s.ip)
    (hb : s.byteAt s.ip.toNat = op) (hv : op ∉ [opMovImm, opAdd, opSub, opMovReg, opTest, opRet]) :
    instructionCycle s = .next (raise .invalidOpcode op 0 (advance 1 s).ip (advance 1 s)) := by
  rw [instructionCycle, fetch_of_inMemory 0 hin, hb]
  simp only [operandCount_of_invalid hv, fetchOperands, decode_of_invalid [] hv]

/-- A cycle that raises a fault after `n` fetches makes a step that faults so. -/
theorem stepFaults_of_instructionCycle {s : State} {n : Nat} {kind : FaultKind} {op index : Byte}
    (hr : s.status = .running)
    (h : instructionCycle s = .next (raise kind op index (advance n s).ip (advance n s))) :
    StepFaults s n kind op index :=
  ⟨_, step_of_raise hr h⟩

/-! ## The obligations -/

/-- Settles O22: `invalidOpcode_iff` turns R59's ranges into the premise of `instructionCycle_of_invalid`,
and a byte outside them into one of the six opcodes. -/
theorem invalidOpcodeStep : Obligations.InvalidOpcodeStep := by
  rintro s op ⟨hr, hin, hb⟩
  constructor
  · intro hinv
    exact stepFaults_of_instructionCycle hr (instructionCycle_of_invalid hin hb (invalidOpcode_iff.1 hinv))
  · intro hvalid
    exact not_not.1 (mt invalidOpcode_iff.2 hvalid)

/-- Settles O2: the six counts are the opcode map's, and R59's ranges lie outside it. -/
theorem opcodeFixesLength : Obligations.OpcodeFixesLength :=
  ⟨operandCount_opRet, operandCount_opMovReg, operandCount_opTest, operandCount_opMovImm,
    operandCount_opAdd, operandCount_opSub,
    fun _ hinv => operandCount_of_invalid (invalidOpcode_iff.1 hinv)⟩

/-- Settles O3: the written bytes are the encodings, so `decode_encode` answers the instructions; 0x90 is
outside the opcode map. -/
theorem writtenWordsDecode : Obligations.WrittenWordsDecode := by
  refine ⟨?movImm, ?word, ?add, ?sub, ?movReg, ?test, ?ret, ?invalid⟩
  case movImm => exact decode_encode (.movImm 0 0x1232) []
  case word => exact decodeTableWord_of_encode (rest := []) (by decide)
  case add => exact decode_encode (.add 0 0x1545) []
  case sub => exact decode_encode (.sub 1 0x0014) []
  case movReg => exact decode_encode (.movReg 2 0) []
  case test => exact decode_encode (.test 2 0) []
  case ret => exact decode_encode .ret []
  case invalid => exact decode_of_invalid [] (by decide)

end Sys2Proof.Machine
end

section
/-! PROOFS. The execute state machine (spec/40_execute_cycle.md, R71). First what the instruction standing
at IP makes of STATUS, then the converse: what a step's STATUS says about the bytes at IP; last the two
commands that change STATUS outside a run. -/

namespace Sys2Proof.Machine

open Sys2Proof.Claims

/-! ## STATUS in a run -/

/-- A run's end hands STATUS to the host and keeps it. -/
theorem completeExecute_status {u t : State} (h : completeExecute (.next u) = .next t) :
    t.status = u.status := by
  by_cases hu : u.status = .running
  · cases (completeExecute_running hu).symm.trans h
    rfl
  · cases (completeExecute_ended hu).symm.trans h
    rfl

/-- An instruction that stands at IP gives the step's STATUS. -/
theorem step_status_of_holds {s t u : State} {i : Instr} (hs : s.status = .running)
    (hh : s.holds s.ip (encode i)) (he : exec i (advance (encode i).length s) = .next u)
    (h : step s = .next t) : t.status = u.status := by
  have hd : decode (encode i) = .ok i [] := by simpa using decode_encode i []
  rw [step_of_running hs, instructionCycle_of_holds hh hd, he] at h
  exact completeExecute_status h

/-- RET halts the run (R88). -/
theorem step_halted_of_ret {s t : State} (hs : s.status = .running) (hh : s.holds s.ip (encode .ret))
    (h : step s = .next t) : t.status = .halted :=
  step_status_of_holds hs hh rfl h

/-- A well-formed instruction other than RET writes a register or FLAGS, and STATUS stays. -/
theorem exec_status_of_wellFormed {i : Instr} (s : State) (hi : i ≠ .ret) (hw : i.wellFormed = true) :
    ∃ u, exec i s = .next u ∧ u.status = s.status := by
  rcases exec_cases i s with ⟨_, _, -, -, e⟩ | ⟨_, _, _, _, -, -, -, e⟩ | ⟨hret, -⟩ | ⟨_, -, -, -, hbad, -⟩
  · exact ⟨_, e, rfl⟩
  · exact ⟨_, e, rfl⟩
  · exact absurd hret hi
  · exact absurd (hw.symm.trans hbad) nofun

/-- A well-formed instruction other than RET keeps the run going. -/
theorem step_running_of_wellFormed {s t : State} {i : Instr} (hs : s.status = .running) (hi : i ≠ .ret)
    (hw : i.wellFormed = true) (hh : s.holds s.ip (encode i)) (h : step s = .next t) :
    t.status = .running := by
  obtain ⟨u, he, hu⟩ := exec_status_of_wellFormed (advance (encode i).length s) hi hw
  exact (step_status_of_holds hs hh he h).trans (hu.trans hs)

theorem wellFormed_test {a b : Byte} {j k : GReg} (hj : regOfByte a = some j)
    (hk : regOfByte b = some k) : (Instr.test a b).wellFormed = true := by
  simp [Instr.wellFormed, ← regOfByte_isSome, hj, hk]

/-- The three ways a step of a run leaves STATUS (R71): halted by RET, running after another well-formed
instruction, faulted. -/
theorem step_running_status_cases {s t : State} (hs : s.status = .running) (h : step s = .next t) :
    (t.status = .halted ∧ s.holds s.ip (encode .ret)) ∨
    (t.status = .running ∧ ∃ i, i ≠ .ret ∧ i.wellFormed = true ∧ s.holds s.ip (encode i)) ∨
    t.status = .faulted := by
  rcases step_running_cases hs with ⟨-, e⟩ | ⟨_, -, -, -, e⟩ | ⟨_, _, -, -, -, -, -, -, e⟩ |
    ⟨_, _, -, -, -, -, -, e⟩ | ⟨i, _, _, hi, hw, hh, e⟩ | ⟨a, b, _, _, hh, hj, hk, e⟩ | ⟨hh, e⟩
  all_goals cases e.symm.trans h
  pick_goal 7 -- RET
  · exact .inl ⟨rfl, hh⟩
  pick_goal 6 -- TEST
  · exact .inr (.inl ⟨hs, .test a b, nofun, wellFormed_test hj hk, hh⟩)
  pick_goal 5 -- a general register written
  · exact .inr (.inl ⟨hs, i, hi, hw, hh⟩)
  all_goals exact .inr (.inr rfl)

/-! ## STATUS outside a run -/

/-- RESET and EXECUTE alone write STATUS among the commands (R28). -/
theorem accept_status_cases (c : Command) (s : State) :
    (accept c s).status = s.status ∨ (c = .execute ∧ (accept c s).status = .running) ∨
    (c = .reset ∧ (accept c s).status = .idle) := by
  rcases accept_cases c s with ⟨rfl, -⟩ | ⟨_, -, -, e⟩ | ⟨_, -, -, e⟩ | ⟨rfl, -⟩ | ⟨_, -, e⟩
  · exact .inr (.inr ⟨rfl, rfl⟩)
  pick_goal 3 -- EXECUTE
  · exact .inr (.inl ⟨rfl, rfl⟩)
  all_goals exact .inl (by simp [e])

/-! ## The obligation -/

/-- Settles O36: in a run `step_running_status_cases` reads the bytes at IP off the new STATUS and
`step_halted_of_ret`, `step_running_of_wellFormed` go back; outside one a step that changes STATUS carries
out one of the two commands of `accept_status_cases`. -/
theorem statusTransitions : Obligations.StatusTransitions := by
  refine ⟨fun s t hs h => ⟨⟨fun ht => ?halted, fun hh => step_halted_of_ret hs hh h⟩,
    ⟨fun ht => ?running, fun ⟨i, hi, hw, hh⟩ => step_running_of_wellFormed hs hi hw hh h⟩,
    fun ht => ?idle⟩, fun s t hs h hne => ?host⟩
  case halted =>
    rcases step_running_status_cases hs h with ⟨-, hret⟩ | ⟨ht', -⟩ | ht'
    · exact hret
    all_goals exact absurd (ht.symm.trans ht') nofun
  case running =>
    rcases step_running_status_cases hs h with ⟨ht', -⟩ | ⟨-, hgoes⟩ | ht'
    pick_goal 2
    · exact hgoes
    all_goals exact absurd (ht.symm.trans ht') nofun
  case idle =>
    rcases step_running_status_cases hs h with ⟨ht', -⟩ | ⟨ht', -⟩ | ht'
    all_goals exact absurd (ht.symm.trans ht') nofun
  case host =>
    rcases eq_or_accepts_of_step hs h with rfl | ⟨c, hc, rfl⟩
    · exact absurd rfl hne
    · rcases accept_status_cases c { s with pending := s.pending.tail } with hkeep | ⟨rfl, ht⟩ | ⟨rfl, ht⟩
      · exact absurd hkeep hne
      · exact .inl ⟨hc, ht⟩
      · exact .inr ⟨hc, ht⟩

end Sys2Proof.Machine
end

section
/-! PROOFS. Register–immediate instructions as steps of a run (spec/41_reg_imm_ops.md, R81 to R83). First
the operand fetches, for any opcode; then the one rule of format RI; then each opcode with its ALU
function. -/

namespace Sys2Proof.Machine

open Sys2Proof.Claims

/-! ## The operand fetch that fails (R73) -/

/-- Operand fetching stops at the first address outside memory: `fetchOperands_cases` gives the place of
the failed fetch, and no other place than `k` fits the premises. -/
theorem fetchOperands_of_first_outside (c : Byte) {n k : Nat} {s : State} (hk : k < n)
    (hin : ∀ j, j < k → s.inMemory (advance j s).ip) (hout : ¬ s.inMemory (advance k s).ip) :
    fetchOperands c n s = .error (raise .memoryFault c 0 (advance k s).ip (advance k s)) := by
  rcases fetchOperands_cases c n s with ⟨bs, hl, hh, -⟩ | ⟨k', -, hin', hout', e⟩
  · exact absurd (holds_inMemory hh (hl ▸ hk)) hout
  · have not_before : ¬ k' < k := fun h => hout' (hin k' h)
    have not_after : ¬ k < k' := fun h => hout (hin' k h)
    obtain rfl : k' = k := by omega
    exact e

/-- MemoryFault at each operand fetch that the opcode makes (R57, R94). -/
theorem operandFetchFaults_of_atOpcode {s : State} {op : Byte} (h : AtOpcode s op) :
    OperandFetchFaults s op (operandCount op) := by
  obtain ⟨hr, hin, hb⟩ := h
  intro k h1 hk hbefore hout
  obtain ⟨m, rfl⟩ : ∃ m, k = 1 + m := ⟨k - 1, by omega⟩
  have hfetch : fetchOperands op (operandCount op) (advance 1 s) =
      .error (raise .memoryFault op 0 (advance (1 + m) s).ip (advance (1 + m) s)) := by
    rw [← advance_advance]
    refine fetchOperands_of_first_outside op (by omega) (fun j hj => ?_) ?_
    · rw [advance_advance, advance_inMemory, advance_ip]
      exact hbefore (1 + j) (by omega) (by omega)
    · rwa [advance_advance, advance_inMemory, advance_ip]
  refine stepFaults_of_instructionCycle hr ?_
  simp only [instructionCycle, fetch_of_inMemory 0 hin, hb, hfetch]

/-! ## Format RI (R56, R72) -/

/-- The instructions `mk r imm` have format RI with opcode `op`, and write what `alu` makes of x[r] and the
immediate. -/
structure IsRegImm (op : Byte) (mk : Byte → Word → Instr) (alu : Word → Word → Word) : Prop where
  count : operandCount op = 3
  encode : ∀ r imm, encode (mk r imm) = [op, r, immLo imm, immHi imm]
  exec : ∀ r imm s, exec (mk r imm) s = onReg op r (fun v => alu v imm) s

theorem isRegImm_movImm : IsRegImm opMovImm .movImm fun _ imm => aluPass imm where
  count := operandCount_opMovImm
  encode _ _ := rfl
  exec _ _ _ := rfl

theorem isRegImm_add : IsRegImm opAdd .add aluAdd where
  count := operandCount_opAdd
  encode _ _ := rfl
  exec _ _ _ := rfl

theorem isRegImm_sub : IsRegImm opSub .sub aluSub where
  count := operandCount_opSub
  encode _ _ := rfl
  exec _ _ _ := rfl

section
variable {op : Byte} {mk : Byte → Word → Instr} {alu : Word → Word → Word} (format : IsRegImm op mk alu)
include format

/-- With all four bytes inside memory the cycle is the instruction's meaning, IP at A + 4. -/
theorem IsRegImm.instructionCycle {s : State} {r lo hi : Byte} (h : AtOpcode s op)
    (hb : s.holds (s.ip + 1) [r, lo, hi]) :
    instructionCycle s = onReg op r (fun v => alu v (imm16 lo hi)) (advance 4 s) := by
  obtain ⟨-, hin, hop⟩ := h
  have bytes : Sys2Proof.encode (mk r (imm16 lo hi)) = [op, r, lo, hi] := by
    rw [format.encode, immLo_imm16, immHi_imm16]
  have holds : s.holds s.ip (Sys2Proof.encode (mk r (imm16 lo hi))) := by
    rw [bytes]
    exact ⟨hin, hop, hb⟩
  have decodes : decode (Sys2Proof.encode (mk r (imm16 lo hi))) = .ok (mk r (imm16 lo hi)) [] := by
    simpa using decode_encode (mk r (imm16 lo hi)) []
  rw [instructionCycle_of_holds holds decodes, format.exec, bytes]
  rfl

/-- The whole rule of format RI (R81, R82, R83). -/
theorem IsRegImm.regImmRule : RegImmRule op alu := by
  intro s h
  have hr : s.status = .running := h.1
  refine ⟨format.count ▸ operandFetchFaults_of_atOpcode h, fun r lo hi hb => ⟨fun hbad => ?badRegister,
    fun k hk imm himm => ?write⟩⟩
  case badRegister =>
    refine stepFaults_of_instructionCycle (n := 4) hr ?_
    rw [format.instructionCycle h hb, onReg, checkReg_none _ (regOfByte_eq_none.2 hbad)]
  case write =>
    obtain rfl : imm = imm16 lo hi := BitVec.eq_of_toNat_eq (himm.trans (imm16_toNat lo hi).symm)
    rw [step_of_running hr, format.instructionCycle h hb, onReg_of_some _ _ hk,
      completeExecute_running (by simpa using hr)]
    rfl

end

/-! ## The ALU functions as the claims write them (R82, R83) -/

theorem aluAdd_eq_ofNat (x y : Word) : aluAdd x y = BitVec.ofNat 16 (x.toNat + y.toNat) := by
  simp [aluAdd, BitVec.ofNat_add]

theorem aluSub_eq_ofInt (x y : Word) : aluSub x y = BitVec.ofInt 16 ((x.toNat : Int) - y.toNat) := by
  apply BitVec.eq_of_toNat_eq
  rw [aluSub_toNat, BitVec.toNat_ofInt]
  omega

/-! ## The obligations -/

/-- Settles O16: format RI with PASS, which hands the immediate on. -/
theorem movImmStep : Obligations.MovImmStep := isRegImm_movImm.regImmRule

/-- Settles O17: format RI with ADD, which is the sum modulo 2^16 (`aluAdd_eq_ofNat`). -/
theorem addStep : Obligations.AddStep := by
  have sum : aluAdd = fun x imm => BitVec.ofNat 16 (x.toNat + imm.toNat) :=
    funext₂ aluAdd_eq_ofNat
  unfold Obligations.AddStep
  rw [← sum]
  exact isRegImm_add.regImmRule

/-- Settles O18: format RI with SUB, which is the difference modulo 2^16 (`aluSub_eq_ofInt`). -/
theorem subStep : Obligations.SubStep := by
  have difference : aluSub = fun x imm => BitVec.ofInt 16 ((x.toNat : Int) - imm.toNat) :=
    funext₂ aluSub_eq_ofInt
  unfold Obligations.SubStep
  rw [← difference]
  exact isRegImm_sub.regImmRule

end Sys2Proof.Machine
end

section
/-! PROOFS. Register–register instructions as steps of a run (spec/42_reg_reg_ops.md, R85, R86). First
what each bad operand byte raises; then the one rule of format RR; then the two opcodes with their
effects. -/

namespace Sys2Proof.Machine

open Sys2Proof.Claims

/-! ## The register operand that is checked first (R75) -/

theorem onRegs_of_first_bad {op i₁ i₂ : Byte} (act : GReg → GReg → State) (s : State) (h₁ : 5 < i₁.toNat) :
    onRegs op i₁ i₂ act s = .next (raise .invalidRegister op i₁ s.ip s) := by
  rw [onRegs, checkReg_none s (regOfByte_eq_none.2 h₁)]

theorem onRegs_of_second_bad {op i₁ i₂ : Byte} (act : GReg → GReg → State) (s : State)
    (h₁ : i₁.toNat ≤ 5) (h₂ : 5 < i₂.toNat) :
    onRegs op i₁ i₂ act s = .next (raise .invalidRegister op i₂ s.ip s) := by
  obtain ⟨j, hj⟩ := exists_regOfByte h₁
  rw [onRegs, checkReg_some s hj]
  simp only [checkReg_none s (regOfByte_eq_none.2 h₂)]

/-! ## Format RR (R56, R72) -/

/-- The instructions `mk x y` have format RR with opcode `op`, and do `act` to valid operands, which
neither reads nor writes IP and keeps STATUS. -/
structure IsRegReg (op : Byte) (mk : Byte → Byte → Instr) (act : State → GReg → GReg → State) : Prop where
  count : operandCount op = 2
  encode : ∀ x y, encode (mk x y) = [op, x, y]
  exec : ∀ x y s, exec (mk x y) s = onRegs op x y (act s) s
  advance : ∀ n s j k, act (advance n s) j k = { act s j k with ip := (advance n s).ip }
  status : ∀ s j k, (act s j k).status = s.status

theorem isRegReg_movReg : IsRegReg opMovReg .movReg fun s j k => writeReg j (aluPass (s.reg k)) s where
  count := operandCount_opMovReg
  encode _ _ := rfl
  exec _ _ _ := rfl
  advance _ _ _ _ := rfl
  status _ _ _ := rfl

theorem isRegReg_test :
    IsRegReg opTest .test fun s j k => writeFlags (testFlags (s.reg j) (s.reg k) s.flags) s where
  count := operandCount_opTest
  encode _ _ := rfl
  exec _ _ _ := rfl
  advance _ _ _ _ := rfl
  status _ _ _ := rfl

section
variable {op : Byte} {mk : Byte → Byte → Instr} {act : State → GReg → GReg → State}
  (format : IsRegReg op mk act)
include format

/-- With all three bytes inside memory the cycle is the instruction's meaning, IP at A + 3. -/
theorem IsRegReg.instructionCycle {s : State} {x y : Byte} (h : AtOpcode s op)
    (hb : s.holds (s.ip + 1) [x, y]) :
    instructionCycle s = onRegs op x y (act (Machine.advance 3 s)) (Machine.advance 3 s) := by
  obtain ⟨-, hin, hop⟩ := h
  have holds : s.holds s.ip (Sys2Proof.encode (mk x y)) := by
    rw [format.encode]
    exact ⟨hin, hop, hb⟩
  have decodes : decode (Sys2Proof.encode (mk x y)) = .ok (mk x y) [] := by
    simpa using decode_encode (mk x y) []
  rw [instructionCycle_of_holds holds decodes, format.exec, format.encode]
  rfl

/-- The whole rule of format RR (R85, R86). -/
theorem IsRegReg.regRegRule : RegRegRule op act := by
  intro s h
  have hr : s.status = .running := h.1
  refine ⟨format.count ▸ operandFetchFaults_of_atOpcode h, fun x y hb => ⟨fun hx => ?badFirst,
    fun hx hy => ?badSecond, fun j k hj hk => ?effect⟩⟩
  case badFirst =>
    refine stepFaults_of_instructionCycle (n := 3) hr ?_
    rw [format.instructionCycle h hb, onRegs_of_first_bad _ _ hx]
  case badSecond =>
    refine stepFaults_of_instructionCycle (n := 3) hr ?_
    rw [format.instructionCycle h hb, onRegs_of_second_bad _ _ hx hy]
  case effect =>
    have goes_on : (act (Machine.advance 3 s) j k).status = .running := (format.status _ j k).trans hr
    rw [step_of_running hr, format.instructionCycle h hb, onRegs_of_some _ _ hj hk,
      completeExecute_running goes_on, format.advance]
    rfl

end

/-! ## The obligations -/

/-- Settles O19: format RR with PASS, which hands x[s] on. -/
theorem movRegStep : Obligations.MovRegStep := isRegReg_movReg.regRegRule

/-- Settles O20: format RR with TEST, whose flag computation is the claim's by `testFlags_eq`. -/
theorem testStep : Obligations.TestStep := by
  unfold Obligations.TestStep
  simp only [← testFlags_eq]
  exact isRegReg_test.regRegRule

end Sys2Proof.Machine
end

section
/-! PROOFS. RET as a step of a run (spec/43_control.md, R88): the opcode alone is the instruction, so the
cycle reads no byte after it; the run is then over, and the host is handed HALTED. -/

namespace Sys2Proof.Machine

open Sys2Proof.Claims

/-- RET is its opcode, so the opcode at IP is all that has to stand in memory (R57, R88). -/
theorem holds_ret_of_atOpcode {s : State} (h : AtOpcode s opRet) : s.holds s.ip (encode .ret) := by
  obtain ⟨-, hin, hop⟩ := h
  exact ⟨hin, hop, trivial⟩

/-- The cycle halts with IP past the opcode (R88). -/
theorem instructionCycle_of_ret {s : State} (h : AtOpcode s opRet) :
    instructionCycle s = .next (haltRun (advance 1 s)) :=
  instructionCycle_of_holds (holds_ret_of_atOpcode h) (decode_opRet [])

/-- The step of RET: the halted state, with HALTED handed to the host (R88, R116). -/
theorem step_of_ret {s : State} (h : AtOpcode s opRet) :
    step s = .next (deliver (.ended .halted) (haltRun (advance 1 s))) := by
  have hr : s.status = .running := h.1
  have ended : (haltRun (advance 1 s)).status ≠ .running := by simp
  rw [step_of_running hr, instructionCycle_of_ret h, completeExecute_ended ended, haltRun_status]

/-! ## The obligation -/

/-- Settles O21: `step_of_ret` with the named updates read as fields; RET adds one reply (log 5). -/
theorem retStep : Obligations.RetStep := fun s h =>
  ⟨s.replies ++ [Reply.ended .halted], step_of_ret h⟩

end Sys2Proof.Machine
end

section
/-! PROOFS. The decoder read backwards (spec/30_encoding.md, R56, R58): a decode that answers an instruction
has read that instruction's encoding. With `decode_encode` this is the agreement in both directions. Last,
which bytes name a register (R60). -/

namespace Sys2Proof

/-- Format RI reads three bytes and keeps all of them. -/
theorem decodeRI_eq_ok {mk : Byte → Word → Instr} {op : Byte} {bs rest : List Byte} {i : Instr}
    (h : decodeRI mk op bs = .ok i rest) :
    ∃ r lo hi, bs = r :: lo :: hi :: rest ∧ i = mk r (imm16 lo hi) := by
  unfold decodeRI at h
  split at h
  · cases h
    exact ⟨_, _, _, rfl, rfl⟩
  · cases h

/-- Format RR reads two bytes and keeps both. -/
theorem decodeRR_eq_ok {mk : Byte → Byte → Instr} {op : Byte} {bs rest : List Byte} {i : Instr}
    (h : decodeRR mk op bs = .ok i rest) : ∃ x y, bs = x :: y :: rest ∧ i = mk x y := by
  unfold decodeRR at h
  split at h
  · cases h
    exact ⟨_, _, rfl, rfl⟩
  · cases h

end Sys2Proof

namespace Sys2Proof.Machine

theorem IsRegImm.eq_encode_of_decodeRI {op : Byte} {mk : Byte → Word → Instr} {alu : Word → Word → Word}
    (format : IsRegImm op mk alu) {bs rest : List Byte} {i : Instr}
    (h : decodeRI mk op bs = .ok i rest) : op :: bs = Sys2Proof.encode i ++ rest := by
  obtain ⟨r, lo, hi, rfl, rfl⟩ := decodeRI_eq_ok h
  rw [format.encode, immLo_imm16, immHi_imm16]
  rfl

theorem IsRegReg.eq_encode_of_decodeRR {op : Byte} {mk : Byte → Byte → Instr}
    {act : State → GReg → GReg → State} (format : IsRegReg op mk act) {bs rest : List Byte} {i : Instr}
    (h : decodeRR mk op bs = .ok i rest) : op :: bs = Sys2Proof.encode i ++ rest := by
  obtain ⟨x, y, rfl, rfl⟩ := decodeRR_eq_ok h
  rw [format.encode]
  rfl

/-- Bytes that decode to an instruction are its encoding and the rest. -/
theorem eq_encode_of_decode {bs rest : List Byte} {i : Instr} (h : decode bs = .ok i rest) :
    bs = encode i ++ rest := by
  cases bs with
  | nil => cases h
  | cons op tail =>
    rcases opcode_cases op with rfl | rfl | rfl | rfl | rfl | rfl | hv
    · exact isRegImm_movImm.eq_encode_of_decodeRI (decode_opMovImm tail ▸ h)
    · exact isRegImm_add.eq_encode_of_decodeRI (decode_opAdd tail ▸ h)
    · exact isRegImm_sub.eq_encode_of_decodeRI (decode_opSub tail ▸ h)
    · exact isRegReg_movReg.eq_encode_of_decodeRR (decode_opMovReg tail ▸ h)
    · exact isRegReg_test.eq_encode_of_decodeRR (decode_opTest tail ▸ h)
    · cases (decode_opRet tail).symm.trans h
      rfl
    · cases (decode_of_invalid tail hv).symm.trans h

/-! ## The obligations -/

/-- Settles O1: `decode_encode` and its converse `eq_encode_of_decode`. -/
theorem decodeEncodeAgree : Obligations.DecodeEncodeAgree :=
  ⟨decode_encode, fun _ _ _ => eq_encode_of_decode⟩

/-- Settles O4: the six names are the table's own; `regOfByte_eq_none` says that no byte above 5 names a
register. -/
theorem registerOperandBytes : Obligations.RegisterOperandBytes :=
  ⟨rfl, rfl, rfl, rfl, rfl, rfl, fun _ => regOfByte_eq_none⟩

end Sys2Proof.Machine
end

section
/-! PROOFS. The invariant (State.Inv). First where the fetches of one instruction can leave IP (R23); then one
rule for each operation a transition is made of, with the premise under which it keeps the invariant; then the
records of R96 that meet those premises. A step of a run is a chain of these rules. -/

namespace Sys2Proof.Machine

open Sys2Proof.Claims

/-! ## Where fetches leave IP (R21, R23) -/

/-- After `n` fetches inside memory IP is at most MEM_SIZE (0 where it wraps). -/
theorem ip_le_of_fetched {s : State} (hsize : s.memSize ≤ Config.maxMemSize) (hip : s.ip.toNat ≤ s.memSize)
    {n : Nat} (hin : ∀ k, k < n → s.inMemory (s.ip + BitVec.ofNat 16 k)) :
    (s.ip + BitVec.ofNat 16 n).toNat ≤ s.memSize := by
  cases n with
  | zero => simpa using hip
  | succ n =>
    have last_inside := hin n (Nat.lt_succ_self n)
    simp only [State.inMemory, Config.maxMemSize, BitVec.toNat_add, BitVec.toNat_ofNat] at *
    omega

/-! ## What each operation keeps -/

namespace State.Inv
variable {s : State}

theorem advance (h : s.Inv) {n : Nat} (hin : ∀ k, k < n → s.inMemory (s.ip + BitVec.ofNat 16 k)) :
    (advance n s).Inv := by
  obtain ⟨hlo, hhi, hwf, hwithin, hip, hrest⟩ := h
  exact ⟨hlo, hhi, hwf, hwithin, ip_le_of_fetched hhi hip hin, hrest⟩

theorem advance_of_holds (h : s.Inv) {bs : List Byte} (hh : s.holds s.ip bs) :
    (Machine.advance bs.length s).Inv :=
  h.advance fun _ hk => holds_inMemory hh hk

/-- The invariant says nothing of the general registers. -/
theorem writeReg (h : s.Inv) (r : GReg) (v : Word) : (writeReg r v s).Inv := h

/-- The invariant says nothing of the replies. -/
theorem deliver (h : s.Inv) (r : Reply) : (deliver r s).Inv := h

/-- The invariant says nothing of the pending commands. -/
theorem setPending (h : s.Inv) (cs : List Command) : ({ s with pending := cs } : State).Inv := h

theorem writeFlags (h : s.Inv) {v : Word} (hv : v &&& flagsReserved = 0) : (writeFlags v s).Inv := by
  obtain ⟨hlo, hhi, hwf, hwithin, hip, hsp, hbp, -, hrecord⟩ := h
  exact ⟨hlo, hhi, hwf, hwithin, hip, hsp, hbp, hv, hrecord⟩

theorem flags_reserved (h : s.Inv) : s.flags &&& flagsReserved = 0 := by
  obtain ⟨-, -, -, -, -, -, -, hflags, -⟩ := h
  exact hflags

/-- RET ends a run, in which no fault is recorded. -/
theorem haltRun (h : s.Inv) (hs : s.status = .running) : (haltRun s).Inv := by
  obtain ⟨hlo, hhi, hwf, hwithin, hip, hsp, hbp, hflags, hfault, hrecord⟩ := h
  have noFault : ¬ s.diag.kind ≠ .none := fun hk => absurd (hs.symm.trans (hfault.2 hk)) nofun
  exact ⟨hlo, hhi, hwf, hwithin, hip, hsp, hbp, hflags, iff_of_false nofun noFault, hrecord⟩

/-- A fault that R96 describes. -/
theorem raise (h : s.Inv) {kind : FaultKind} {op index : Byte} {pos : Word}
    (hlawful : (Diag.mk kind op index pos).lawful = true) (hkind : kind ≠ .none)
    (hpos : kind = .memoryFault → s.memSize ≤ pos.toNat) : (raise kind op index pos s).Inv := by
  obtain ⟨hlo, hhi, hwf, hwithin, hip, hsp, hbp, hflags, -⟩ := h
  exact ⟨hlo, hhi, hwf, hwithin, hip, hsp, hbp, hflags, iff_of_true rfl hkind, hlawful, hpos⟩

theorem enterRun (h : s.Inv) : (enterRun s).Inv := by
  obtain ⟨hlo, hhi, hwf, hwithin, hip, hsp, hbp, hflags, -⟩ := h
  exact ⟨hlo, hhi, hwf, hwithin, hip, hsp, hbp, hflags, iff_of_false nofun (not_not.2 rfl), rfl, nofun⟩

theorem resetCommand (h : s.Inv) : (resetCommand s).Inv := by
  obtain ⟨hlo, hhi, hwf, hwithin, -⟩ := h
  exact ⟨hlo, hhi, hwf, hwithin, Nat.zero_le _, rfl, rfl, BitVec.zero_and, iff_of_false nofun (not_not.2 rfl),
    rfl, nofun⟩

/-- A program that fits stays inside memory. -/
theorem loadProgram (h : s.Inv) {p : List Byte} (hp : p.length ≤ s.memSize) : (loadProgram p s).Inv := by
  obtain ⟨hlo, hhi, hwf, hwithin, -, hrest⟩ := h
  exact ⟨hlo, hhi, Memory.wf_store hwf 0 p, Memory.within_store hwithin (by omega), Nat.zero_le _, hrest⟩

theorem accept (h : s.Inv) (c : Command) : (accept c s).Inv := by
  rcases accept_cases c s with ⟨-, e⟩ | ⟨p, -, hp, e⟩ | ⟨p, -, -, e⟩ | ⟨-, e⟩ | ⟨r, -, e⟩
  all_goals rw [e]
  · exact h.resetCommand
  · exact (h.loadProgram hp).deliver _
  · exact h.deliver _
  · exact h.enterRun
  · exact h.deliver _

end State.Inv

/-! ## The records a fault leaves (R96), and TEST's FLAGS (R24) -/

theorem lawful_opcodeFetch (pos : Word) : (Diag.mk .memoryFault 0 0 pos).lawful = true := rfl

theorem lawful_memoryFault {op : Byte} (pos : Word) (h : 0 < operandCount op) :
    (Diag.mk .memoryFault op 0 pos).lawful = true := by simp [Diag.lawful, h]

theorem lawful_invalidOpcode {op : Byte} (pos : Word)
    (h : op ∉ [opMovImm, opAdd, opSub, opMovReg, opTest, opRet]) :
    (Diag.mk .invalidOpcode op 0 pos).lawful = true := by
  have not_ret : op ≠ opRet := by rintro rfl; simp at h
  simp [Diag.lawful, operandCount_of_invalid h, not_ret]

theorem lawful_invalidRegister {i : Instr} {v : Byte} (pos : Word) (hi : i ≠ .ret) (hv : 5 < v.toNat) :
    (Diag.mk .invalidRegister (opcodeOf i) v pos).lawful = true := by
  have takes_operands : 0 < operandCount (opcodeOf i) := by
    cases i with
    | ret => exact absurd rfl hi
    | _ => simp [opcodeOf]
  simp [Diag.lawful, takes_operands, hv]

/-- TEST sets no reserved bit. -/
theorem testFlags_reserved (x y : Word) {flags : Word} (h : flags &&& flagsReserved = 0) :
    testFlags x y flags &&& flagsReserved = 0 := by
  have bit_not_reserved : testBit x y &&& flagsReserved = 0 := by
    unfold testBit
    split <;> decide
  rw [testFlags, BitVec.and_or_distrib_right, h, bit_not_reserved]
  rfl

/-! ## The obligations -/

/-- A step of a run keeps the invariant: each of its cases is a chain of the rules above. -/
theorem step_running_keeps_inv {s t : State} (hs : s.status = .running) (hI : s.Inv)
    (h : step s = .next t) : t.Inv := by
  rcases step_running_cases hs with ⟨hout, e⟩ | ⟨op, hin, -, hv, e⟩ | ⟨op, k, -, -, h1, hk, hin, hout, e⟩ |
    ⟨i, v, hh, hi, -, -, hv, e⟩ | ⟨i, k, v, -, -, hh, e⟩ | ⟨a, b, j, k, hh, -, -, e⟩ | ⟨hh, e⟩
  all_goals cases e.symm.trans h
  · -- the opcode fetch
    exact (hI.raise (lawful_opcodeFetch _) nofun fun _ => not_lt.1 hout).deliver _
  · -- an invalid opcode
    have past_opcode : (advance 1 s).Inv := hI.advance fun k hk => by
      obtain rfl : k = 0 := by omega
      simpa using hin
    exact (past_opcode.raise (lawful_invalidOpcode _ hv) nofun nofun).deliver _
  · -- an operand fetch
    have record := lawful_memoryFault (advance k s).ip (op := op) (by omega)
    exact ((hI.advance hin).raise record nofun fun _ => not_lt.1 hout).deliver _
  · -- a bad register byte
    exact ((hI.advance_of_holds hh).raise (lawful_invalidRegister _ hi hv) nofun nofun).deliver _
  · -- a general register written
    exact (hI.advance_of_holds hh).writeReg k v
  · -- TEST
    exact (hI.advance_of_holds hh).writeFlags (testFlags_reserved _ _ hI.flags_reserved)
  · -- RET
    exact ((hI.advance_of_holds hh).haltRun hs).deliver _

/-- Settles O27: in a run `step_running_keeps_inv`, outside one `State.Inv.accept`. -/
theorem stepKeepsInvariant : Obligations.StepKeepsInvariant := by
  intro s t hI h
  by_cases hs : s.status = .running
  · exact step_running_keeps_inv hs hI h
  · rcases eq_or_accepts_of_step hs h with rfl | ⟨c, -, rfl⟩
    · exact hI
    · exact (hI.setPending s.pending.tail).accept c

/-- Settles O26: the reset state is what RESET leaves of a memory of 1024 bytes with nothing loaded. -/
theorem resetMeetsInvariant : Obligations.ResetMeetsInvariant :=
  ⟨by decide, by decide, reset_mem_wf, nofun, Nat.zero_le _, rfl, rfl, rfl,
    iff_of_false nofun (not_not.2 rfl), rfl, nofun⟩

/-- Settles O5: the values `State.reset` writes out. -/
theorem resetStateValues : Obligations.ResetStateValues := by
  have registers : ∀ r, State.reset.reg r = 0 := fun r => by cases r <;> rfl
  exact ⟨registers, rfl, rfl, rfl, rfl, rfl, rfl, rfl, rfl, rfl⟩

end Sys2Proof.Machine
end

section
/-! PROOFS. The meanings of the instructions (`exec`, spec/41_reg_imm_ops.md, spec/42_reg_reg_ops.md,
spec/43_control.md) and the fetch unit (R44). For each of the two formats: what a valid operand and what a
bad one does, once; then each instruction by its ALU function. -/

namespace Sys2Proof.Machine

open Sys2Proof.Claims

/-! ## What the two writes leave alone -/

theorem frame_writeReg (r : GReg) (v : Word) (s : State) : Frame s (writeReg r v s) :=
  ⟨rfl, ⟨rfl, rfl⟩, ⟨rfl, rfl⟩, ⟨rfl, fun _ => rfl⟩, ⟨rfl, rfl⟩⟩

theorem frame_writeFlags (v : Word) (s : State) : Frame s (writeFlags v s) :=
  ⟨rfl, ⟨rfl, rfl⟩, ⟨rfl, rfl⟩, ⟨rfl, fun _ => rfl⟩, ⟨rfl, rfl⟩⟩

/-! ## Format RI -/

section
variable {op : Byte} {mk : Byte → Word → Instr} {alu : Word → Word → Word} (format : IsRegImm op mk alu)
include format

theorem IsRegImm.exec_of_some {r : Byte} {k : GReg} (hk : regOfByte r = some k) (imm : Word) (s : State) :
    Machine.exec (mk r imm) s = .next (writeReg k (alu (s.reg k) imm) s) := by
  rw [format.exec, onReg_of_some _ _ hk]

theorem IsRegImm.exec_of_bad {r : Byte} (hr : 5 < r.toNat) (imm : Word) (s : State) :
    Machine.exec (mk r imm) s = .next (raise .invalidRegister op r s.ip s) := by
  rw [format.exec, onReg, checkReg_none s (regOfByte_eq_none.2 hr)]

/-- What the ALU function computes is what the instruction leaves in x[r]. -/
theorem IsRegImm.regImmEffect {post : Nat → Nat → Nat → Prop}
    (hpost : ∀ x imm : Word, post x.toNat imm.toNat (alu x imm).toNat) : RegImmEffect mk post := by
  intro s r imm k hk
  refine ⟨_, format.exec_of_some hk imm s, ?_, fun j hj => writeReg_reg_ne s _ hj, rfl, frame_writeReg _ _ _⟩
  rw [writeReg_reg_self]
  exact hpost (s.reg k) imm

end

/-! ## Format RR -/

section
variable {op : Byte} {mk : Byte → Byte → Instr} {act : State → GReg → GReg → State}
  (format : IsRegReg op mk act)
include format

theorem IsRegReg.exec_of_some {x y : Byte} {j k : GReg} (hj : regOfByte x = some j)
    (hk : regOfByte y = some k) (s : State) : Machine.exec (mk x y) s = .next (act s j k) := by
  rw [format.exec, onRegs_of_some _ _ hj hk]

/-- The first operand above 5 is the one reported (R75). -/
theorem IsRegReg.exec_of_bad {x y : Byte} (h : 5 < x.toNat ∨ 5 < y.toNat) (s : State) :
    Machine.exec (mk x y) s =
      .next (raise .invalidRegister op (if 5 < x.toNat then x else y) s.ip s) := by
  rw [format.exec]
  by_cases hx : 5 < x.toNat
  · rw [if_pos hx, onRegs_of_first_bad _ _ hx]
  · rw [if_neg hx, onRegs_of_second_bad _ _ (not_lt.1 hx) (h.resolve_left hx)]

end

/-! ## The ALU and TEST's bit -/

/-- SUB wraps where the immediate is larger (R83). -/
theorem aluSub_toNat_cases (x y : Word) :
    (aluSub x y).toNat = if y.toNat ≤ x.toNat then x.toNat - y.toNat else x.toNat + 65536 - y.toNat := by
  have hx := x.isLt
  rw [aluSub_toNat]
  split <;> omega

/-- SUB is ADD of the two's complement (R84). -/
theorem aluSub_eq_aluAdd {x imm neg : Word} (himm : imm ≠ 0) (hneg : neg.toNat = 65536 - imm.toNat) :
    aluSub x imm = aluAdd x neg := by
  have hx := x.isLt
  have hpos : imm.toNat ≠ 0 := fun h => himm (BitVec.eq_of_toNat_eq h)
  apply BitVec.eq_of_toNat_eq
  rw [aluSub_toNat, aluAdd_toNat, hneg]
  congr 1
  omega

/-- TEST's bit is bit 0 for equal registers, bit 1 for different ones, and no other. -/
theorem testBit_getLsbD (x y : Word) (n : Nat) :
    (testBit x y).getLsbD n = if x = y then decide (n = 0) else decide (n = 1) := by
  have equal : testBit x y = if x = y then flagZF else flagNE := by simp [testBit, aluEqual]
  rw [equal]
  split
  all_goals
    match n with
    | 0 => rfl
    | 1 => rfl
    | n + 2 => simp [flagZF, flagNE, BitVec.getLsbD, Nat.testBit_succ]

/-! ## The obligations -/

/-- Settles O7: PASS hands the immediate on. -/
theorem movImmWritesOneRegister : Obligations.MovImmWritesOneRegister :=
  isRegImm_movImm.regImmEffect fun _ _ => rfl

/-- Settles O8, by `aluAdd_toNat`. -/
theorem addWrapsWithoutFlags : Obligations.AddWrapsWithoutFlags :=
  isRegImm_add.regImmEffect aluAdd_toNat

/-- Settles O9, by `aluSub_toNat_cases`. -/
theorem subWrapsWithoutFlags : Obligations.SubWrapsWithoutFlags :=
  isRegImm_sub.regImmEffect aluSub_toNat_cases

/-- Settles O10: PASS hands x[s] on. -/
theorem movRegCopies : Obligations.MovRegCopies := fun s _ _ j k hj hk =>
  ⟨_, isRegReg_movReg.exec_of_some hj hk s, writeReg_reg_self s j (s.reg k),
    fun _ hi => writeReg_reg_ne s _ hi, rfl, frame_writeReg _ _ _⟩

/-- Settles O11: `testBit_getLsbD` says which bit of FLAGS gains. -/
theorem testSetsOneFlag : Obligations.TestSetsOneFlag := by
  intro s a b j k hj hk
  have bits : ∀ n, (testFlags (s.reg j) (s.reg k) s.flags).getLsbD n =
      (s.flags.getLsbD n || if s.reg j = s.reg k then decide (n = 0) else decide (n = 1)) := fun n => by
    rw [testFlags, BitVec.getLsbD_or, testBit_getLsbD]
  refine ⟨_, isRegReg_test.exec_of_some hj hk s, ?zf, ?ne, fun n hn => ?reserved, fun _ => rfl,
    frame_writeFlags _ _⟩
  case zf => simpa using bits 0
  case ne => simpa using bits 1
  case reserved =>
    have not_zf : n ≠ 0 := by omega
    have not_ne : n ≠ 1 := by omega
    simpa [not_zf, not_ne] using bits n

/-- Settles O12: `haltRun` writes STATUS alone. -/
theorem retHalts : Obligations.RetHalts := fun s =>
  ⟨haltRun s, rfl, rfl, rfl, fun _ => rfl, rfl, rfl, ⟨rfl, rfl⟩, ⟨rfl, fun _ => rfl⟩, ⟨rfl, rfl⟩⟩

/-- Settles O13: `IsRegImm.exec_of_bad` for each of the three opcodes. -/
theorem regImmTrapsOnBadRegister : Obligations.RegImmTrapsOnBadRegister := by
  intro s r imm hr p hp
  simp only [List.mem_cons, List.not_mem_nil, or_false] at hp
  rcases hp with rfl | rfl | rfl
  · exact isRegImm_movImm.exec_of_bad hr imm s
  · exact isRegImm_add.exec_of_bad hr imm s
  · exact isRegImm_sub.exec_of_bad hr imm s

/-- Settles O14: `IsRegReg.exec_of_bad` for both opcodes. -/
theorem regRegTrapsOnBadRegister : Obligations.RegRegTrapsOnBadRegister := by
  intro s x y hxy p hp
  simp only [List.mem_cons, List.not_mem_nil, or_false] at hp
  rcases hp with rfl | rfl
  · exact isRegReg_movReg.exec_of_bad hxy s
  · exact isRegReg_test.exec_of_bad hxy s

/-- Settles O15: both instructions write x[r], and `aluSub_eq_aluAdd` says that they write the same. -/
theorem subIsAddOfComplement : Obligations.SubIsAddOfComplement := by
  intro s r imm neg hr himm hneg
  obtain ⟨k, hk⟩ := exists_regOfByte hr
  rw [isRegImm_sub.exec_of_some hk, isRegImm_add.exec_of_some hk, aluSub_eq_aluAdd himm hneg]

/-- Settles O24: the two answers of `fetch`, IP as a number modulo 2^16. -/
theorem fetchReadsAndAdvances : Obligations.FetchReadsAndAdvances := by
  intro c s
  refine ⟨fun hin => ⟨advance 1 s, fetch_of_inMemory c hin, rfl, ?_⟩,
    fun hout => fetch_of_not_inMemory c (not_lt.2 hout)⟩
  simp [BitVec.toNat_add]

end Sys2Proof.Machine
end

section
/-! PROOFS. One step of a run (spec/40_execute_cycle.md) as one of four updates of the state. What is fetched
fixes the number of bytes fetched and the update (`exists_update_of_step`), so that states which agree in
what a step fetches make the same update; and what every step of a run leaves alone is read off the four
updates. -/

namespace Sys2Proof.Machine

open Sys2Proof.Claims

/-! ## The updates -/

/-- What a step of a run does besides moving IP past the bytes fetched: end in a fault, write a general
register with a value made of the register file, TEST, or RET. -/
inductive RunUpdate where
  | fault (kind : FaultKind) (op index : Byte)
  | write (r : GReg) (v : RegFile → Word)
  | test (j k : GReg)
  | halt

namespace RunUpdate

/-- The state after the update, `n` bytes having been fetched. -/
def apply (n : Nat) (s : State) : RunUpdate → State
  | .fault kind op index =>
    deliver (.ended .faulted) (raise kind op index (advance n s).ip (advance n s))
  | .write r v => writeReg r (v s.regs) (advance n s)
  | .test j k => writeFlags (testFlags (s.reg j) (s.reg k) s.flags) (advance n s)
  | .halt => deliver (.ended .halted) (haltRun (advance n s))

/-- What `n` fetches from `s` allow: a fault of a kind, a MemoryFault only where IP has come to lie outside
memory, and anything else only after a fetch. -/
def Possible (s : State) (n : Nat) : RunUpdate → Prop
  | .fault kind _ _ => kind ≠ .none ∧ (kind = .memoryFault → ¬ s.inMemory (s.ip + BitVec.ofNat 16 n))
  | _ => 1 ≤ n

variable (x : RunUpdate) (n : Nat) (s : State)

theorem apply_keepsMemory : KeepsMemory s (x.apply n s) := by
  cases x <;> exact ⟨rfl, fun _ => rfl⟩

theorem apply_pending : (x.apply n s).pending = s.pending := by
  cases x <;> rfl

theorem apply_ip : (x.apply n s).ip = s.ip + BitVec.ofNat 16 n := by
  cases x <;> rfl

/-- A run's last step appends the STATUS it leaves to the replies. -/
theorem apply_replies (hs : s.status = .running) :
    (x.apply n s).replies = if (x.apply n s).status = .running then s.replies
      else s.replies ++ [.ended (x.apply n s).status] := by
  cases x with
  | fault kind op index => rfl
  | write r v => exact (if_pos hs).symm
  | test j k => exact (if_pos hs).symm
  | halt => rfl

variable {x n s}

/-- A run goes on only after at least one fetch. -/
theorem fetched_of_running (hx : x.Possible s n) (h : (x.apply n s).status = .running) : 1 ≤ n := by
  cases x with
  | fault kind op index => exact absurd h nofun
  | write r v => exact hx
  | test j k => exact hx
  | halt => exact hx

/-- The only update that ends FAULTED is a fault. -/
theorem exists_fault_of_faulted (hs : s.status = .running) (h : (x.apply n s).status = .faulted) :
    ∃ kind op index, x = .fault kind op index := by
  cases x with
  | fault kind op index => exact ⟨kind, op, index, rfl⟩
  | write r v => exact absurd (hs.symm.trans h) nofun
  | test j k => exact absurd (hs.symm.trans h) nofun
  | halt => exact absurd h nofun

end RunUpdate

/-! ## The update of an instruction -/

theorem completeExecute_next (t : State) :
    completeExecute (.next t) =
      .next (if t.status = .running then t else deliver (.ended t.status) t) := by
  by_cases ht : t.status = .running
  · rw [completeExecute_running ht, if_pos ht]
  · rw [completeExecute_ended ht, if_neg ht]

/-- `x` is what executing `i` comes to, from every state of a run whose IP stands past `i`. -/
def UpdateOf (i : Instr) (x : RunUpdate) : Prop :=
  (∀ s n, 1 ≤ n → x.Possible s n) ∧
  ∀ n u, u.status = .running → completeExecute (exec i (advance n u)) = .next (x.apply n u)

theorem updateOf_invalidRegister {i : Instr} {op index : Byte}
    (h : ∀ s, exec i s = .next (raise .invalidRegister op index s.ip s)) :
    UpdateOf i (.fault .invalidRegister op index) := by
  refine ⟨fun _ _ _ => ⟨nofun, nofun⟩, fun n u _ => ?_⟩
  rw [h, completeExecute_ended (by simp)]
  rfl

theorem IsRegImm.exists_updateOf {op : Byte} {mk : Byte → Word → Instr} {alu : Word → Word → Word}
    (format : IsRegImm op mk alu) (r : Byte) (imm : Word) : ∃ x, UpdateOf (mk r imm) x := by
  cases hk : regOfByte r with
  | none => exact ⟨_, updateOf_invalidRegister (format.exec_of_bad (regOfByte_eq_none.1 hk) imm)⟩
  | some k =>
    refine ⟨.write k fun regs => alu (regs.get k) imm, fun _ _ hn => hn, fun n u hu => ?_⟩
    rw [format.exec_of_some hk]
    exact completeExecute_running hu

/-- `update j k` is what the instruction's effect on the registers `j` and `k` comes to. -/
theorem IsRegReg.exists_updateOf {op : Byte} {mk : Byte → Byte → Instr} {act : State → GReg → GReg → State}
    (format : IsRegReg op mk act) {update : GReg → GReg → RunUpdate}
    (possible : ∀ j k s n, 1 ≤ n → (update j k).Possible s n)
    (apply_eq : ∀ j k n u, act (Machine.advance n u) j k = (update j k).apply n u) (a b : Byte) :
    ∃ x, UpdateOf (mk a b) x := by
  by_cases bad : 5 < a.toNat ∨ 5 < b.toNat
  · exact ⟨_, updateOf_invalidRegister (format.exec_of_bad bad)⟩
  · obtain ⟨ha, hb⟩ := not_or.1 bad
    obtain ⟨j, hj⟩ := exists_regOfByte (not_lt.1 ha)
    obtain ⟨k, hk⟩ := exists_regOfByte (not_lt.1 hb)
    refine ⟨update j k, possible j k, fun n u hu => ?_⟩
    have goes_on : (act (Machine.advance n u) j k).status = .running := (format.status _ j k).trans hu
    rw [format.exec_of_some hj hk, completeExecute_running goes_on, apply_eq]

theorem exists_updateOf (i : Instr) : ∃ x, UpdateOf i x := by
  cases i with
  | movImm r imm => exact isRegImm_movImm.exists_updateOf r imm
  | add r imm => exact isRegImm_add.exists_updateOf r imm
  | sub r imm => exact isRegImm_sub.exists_updateOf r imm
  | movReg d src =>
    exact isRegReg_movReg.exists_updateOf (update := fun j k => .write j fun regs => aluPass (regs.get k))
      (fun _ _ _ _ hn => hn) (fun _ _ _ _ => rfl) d src
  | test a b =>
    exact isRegReg_test.exists_updateOf (update := .test) (fun _ _ _ _ hn => hn) (fun _ _ _ _ => rfl) a b
  | ret =>
    refine ⟨.halt, fun _ _ hn => hn, fun n u _ => ?_⟩
    exact completeExecute_ended (t := haltRun (advance n u)) nofun

/-! ## States that agree in what a step fetches (R42, R72) -/

/-- Bytes that stand in memory stand in every other memory that agrees there. -/
theorem holds_congr {s u : State} (hsize : u.memSize = s.memSize) {a : Word} {bs : List Byte}
    (hbytes : ∀ k, k < bs.length →
      u.byteAt (a + BitVec.ofNat 16 k).toNat = s.byteAt (a + BitVec.ofNat 16 k).toNat)
    (h : s.holds a bs) : u.holds a bs := by
  induction bs generalizing a with
  | nil => trivial
  | cons b bs ih =>
    obtain ⟨hin, hb, hrest⟩ := h
    refine ⟨lt_of_lt_of_eq hin hsize.symm, ?_, ih (fun k hk => ?_) hrest⟩
    · simpa [hb] using hbytes 0 (Nat.succ_pos _)
    · have next := hbytes (k + 1) (Nat.succ_lt_succ hk)
      rwa [Nat.add_comm k 1, BitVec.ofNat_add, ← BitVec.add_assoc] at next

/-- `u` has the STATUS, MEM_SIZE and IP of `s` and its four bytes at IP. -/
structure SameFetches (s u : State) : Prop where
  status : u.status = s.status
  memSize : u.memSize = s.memSize
  ip : u.ip = s.ip
  byteAt : ∀ k, k < 4 →
    u.byteAt (s.ip + BitVec.ofNat 16 k).toNat = s.byteAt (s.ip + BitVec.ofNat 16 k).toNat

theorem SameFetches.refl (s : State) : SameFetches s s := ⟨rfl, rfl, rfl, fun _ _ => rfl⟩

namespace SameFetches
variable {s u : State} (same : SameFetches s u)
include same

theorem inMemory_advance (k : Nat) : u.inMemory (advance k u).ip ↔ s.inMemory (advance k s).ip := by
  simp only [State.inMemory, same.memSize, Machine.advance_ip, same.ip]

theorem inMemory_ip : u.inMemory u.ip ↔ s.inMemory s.ip := by
  simp only [State.inMemory, same.memSize, same.ip]

theorem opcode : u.byteAt u.ip.toNat = s.byteAt s.ip.toNat := by
  simpa [same.ip] using same.byteAt 0 (by decide)

theorem holds {i : Instr} (h : s.holds s.ip (encode i)) : u.holds u.ip (encode i) := by
  rw [same.ip]
  exact holds_congr same.memSize
    (fun k hk => same.byteAt k (Nat.lt_of_lt_of_le hk (encode_length_le i))) h

end SameFetches

/-! ## The step -/

theorem instructionCycle_of_opcode_outside {s : State} (h : ¬ s.inMemory s.ip) :
    instructionCycle s = .next (raise .memoryFault 0 0 (advance 0 s).ip (advance 0 s)) := by
  rw [advance_zero, instructionCycle, fetch_of_not_inMemory 0 h]

theorem instructionCycle_of_operand_outside {s : State} {op : Byte} {k : Nat} (hin : s.inMemory s.ip)
    (hop : s.byteAt s.ip.toNat = op) (h1 : 1 ≤ k) (hk : k ≤ operandCount op)
    (hbefore : ∀ j, j < k → s.inMemory (advance j s).ip) (hout : ¬ s.inMemory (advance k s).ip) :
    instructionCycle s = .next (raise .memoryFault op 0 (advance k s).ip (advance k s)) := by
  obtain ⟨m, rfl⟩ : ∃ m, k = 1 + m := ⟨k - 1, by omega⟩
  have operands : fetchOperands op (operandCount op) (advance 1 s) =
      .error (raise .memoryFault op 0 (advance (1 + m) s).ip (advance (1 + m) s)) := by
    rw [← advance_advance]
    refine fetchOperands_of_first_outside op (by omega) (fun j hj => ?_) ?_
    · rw [advance_advance, advance_inMemory]
      exact hbefore (1 + j) (by omega)
    · rwa [advance_advance, advance_inMemory]
  simp only [instructionCycle, fetch_of_inMemory 0 hin, hop, operands]

/-- The step of an instruction that stands at IP. -/
theorem step_of_holds {s : State} {i : Instr} (hs : s.status = .running)
    (hh : s.holds s.ip (encode i)) : step s = completeExecute (exec i (advance (encode i).length s)) := by
  have hd : decode (encode i) = .ok i [] := by simpa using decode_encode i []
  rw [step_of_running hs, instructionCycle_of_holds hh hd]

/-- A step of a run fetches at most four bytes, each inside memory, and makes an update that these allow; so
does every state that agrees with it in what it fetches. -/
theorem exists_update_of_step {s : State} (hs : s.status = .running) :
    ∃ n x, n ≤ 4 ∧ (∀ k, k < n → s.inMemory (s.ip + BitVec.ofNat 16 k)) ∧ RunUpdate.Possible s n x ∧
      ∀ u, SameFetches s u → step u = .next (x.apply n u) := by
  rcases instructionCycle_cases s with
    ⟨hout, -⟩ | ⟨op, hin, hop, hv, -⟩ | ⟨op, k, hin, hop, h1, hk, hbefore, hout, -⟩ | ⟨i, hh, -⟩
  · refine ⟨0, .fault .memoryFault 0 0, by omega, nofun, ⟨nofun, fun _ => by simpa using hout⟩,
      fun u same => ?_⟩
    exact step_of_raise (same.status.trans hs)
      (instructionCycle_of_opcode_outside (mt same.inMemory_ip.1 hout))
  · refine ⟨1, .fault .invalidOpcode op 0, by omega, fun k hk => ?_, ⟨nofun, nofun⟩, fun u same => ?_⟩
    · obtain rfl : k = 0 := by omega
      simpa using hin
    · exact step_of_raise (same.status.trans hs)
        (instructionCycle_of_invalid (same.inMemory_ip.2 hin) (same.opcode.trans hop) hv)
  · have := operandCount_le op
    refine ⟨k, .fault .memoryFault op 0, by omega, hbefore, ⟨nofun, fun _ => hout⟩, fun u same => ?_⟩
    exact step_of_raise (same.status.trans hs)
      (instructionCycle_of_operand_outside (same.inMemory_ip.2 hin) (same.opcode.trans hop) h1 hk
        (fun j hj => (same.inMemory_advance j).2 (hbefore j hj)) (mt (same.inMemory_advance k).1 hout))
  · obtain ⟨x, possible, update⟩ := exists_updateOf i
    refine ⟨(encode i).length, x, encode_length_le i, fun k => holds_inMemory hh,
      possible s _ (Nat.succ_pos _), fun u same => ?_⟩
    have running := same.status.trans hs
    rw [step_of_holds running (same.holds hh), update _ u running]

/-- The update that leads from `s` to `t`. -/
theorem exists_update {s t : State} (hs : s.status = .running) (h : step s = .next t) :
    ∃ n x, n ≤ 4 ∧ (∀ k, k < n → s.inMemory (s.ip + BitVec.ofNat 16 k)) ∧ RunUpdate.Possible s n x ∧
      t = x.apply n s := by
  obtain ⟨n, x, hn, hin, possible, update⟩ := exists_update_of_step hs
  exact ⟨n, x, hn, hin, possible, Host.Outcome.next.inj (h.symm.trans (update s (.refl s)))⟩

/-- No instruction writes memory (R42, R50). -/
theorem step_running_keepsMemory {s t : State} (hs : s.status = .running) (h : step s = .next t) :
    KeepsMemory s t := by
  obtain ⟨n, x, -, -, -, rfl⟩ := exists_update hs h
  exact x.apply_keepsMemory n s

/-- No instruction takes a command of the host (R118). -/
theorem step_running_pending {s t : State} (hs : s.status = .running) (h : step s = .next t) :
    t.pending = s.pending := by
  obtain ⟨n, x, -, -, -, rfl⟩ := exists_update hs h
  exact x.apply_pending n s

/-- IP moves past at most four bytes, each inside memory, and past at least one if the run goes on. -/
theorem step_running_ip {s t : State} (hs : s.status = .running) (h : step s = .next t) :
    ∃ n, n ≤ 4 ∧ (t.status = .running → 1 ≤ n) ∧ t.ip = s.ip + BitVec.ofNat 16 n ∧
      ∀ k, k < n → s.inMemory (s.ip + BitVec.ofNat 16 k) := by
  obtain ⟨n, x, hn, hin, possible, rfl⟩ := exists_update hs h
  exact ⟨n, hn, RunUpdate.fetched_of_running possible, x.apply_ip n s, hin⟩

/-- A step of a run that ends FAULTED is a fault and nothing else. -/
theorem exists_fault {s t : State} (hs : s.status = .running) (h : step s = .next t)
    (hfault : t.status = .faulted) :
    ∃ n kind op index, kind ≠ .none ∧
      (kind = .memoryFault → ¬ s.inMemory (s.ip + BitVec.ofNat 16 n)) ∧
      t = RunUpdate.apply n s (.fault kind op index) := by
  obtain ⟨n, x, -, -, possible, rfl⟩ := exists_update hs h
  obtain ⟨kind, op, index, rfl⟩ := RunUpdate.exists_fault_of_faulted hs hfault
  obtain ⟨hkind, hout⟩ := possible
  exact ⟨n, kind, op, index, hkind, hout, rfl⟩

/-! ## The obligations -/

/-- Settles O23: the fetch of the opcode is the first thing a step does; and where MEM_SIZE is 65536 every
address is inside memory, so no fault can be a fetch's. -/
theorem opcodeFetchFault : Obligations.OpcodeFetchFault := by
  refine ⟨fun s hs hout => stepFaults_of_instructionCycle hs (instructionCycle_of_opcode_outside hout),
    fun s t hs hsize h hfault hmem => ?_⟩
  obtain ⟨n, kind, op, index, -, outside, rfl⟩ := exists_fault hs h hfault
  exact outside hmem (lt_of_lt_of_eq (BitVec.isLt _) hsize.symm)

/-- Settles O25: the bytes are the encoding of `i` (`eq_encode_of_decode`), which stands at IP. -/
theorem stepRunsDecoded : Obligations.StepRunsDecoded := by
  intro s bs i hs hd hh
  obtain rfl : bs = encode i := by simpa using eq_encode_of_decode hd
  have completes : ∃ u, exec i (advance (encode i).length s) = .next u := by
    rcases exec_cases i (advance (encode i).length s) with ⟨_, _, -, -, e⟩ | ⟨_, _, _, _, -, -, -, e⟩ |
      ⟨-, e⟩ | ⟨_, -, -, -, -, e⟩
    all_goals exact ⟨_, e⟩
  obtain ⟨u, hu⟩ := completes
  refine ⟨u, hu, ?_⟩
  rw [step_of_holds hs hh, hu, completeExecute_next]
  rfl

/-- Settles O35: `raise` writes STATUS and DIAG alone, and pos is IP. -/
theorem faultsArePrecise : Obligations.FaultsArePrecise := by
  intro s t hs h hfault
  obtain ⟨n, kind, op, index, hkind, -, rfl⟩ := exists_fault hs h hfault
  exact ⟨fun _ => rfl, ⟨rfl, rfl⟩, rfl, ⟨rfl, fun _ => rfl⟩, hkind, rfl⟩

/-- Settles O49, by `RunUpdate.apply_replies`. -/
theorem runEndDeliversStatus : Obligations.RunEndDeliversStatus := by
  intro s t hs h
  obtain ⟨n, x, -, -, -, rfl⟩ := exists_update hs h
  exact x.apply_replies n s hs

/-- Settles O41: the two states agree in what the step fetches, and no update reads or writes memory. -/
theorem stepReadsOnlyBytesAtIp : Obligations.StepReadsOnlyBytesAtIp := by
  intro s m hs hbytes
  obtain ⟨n, x, -, -, -, update⟩ := exists_update_of_step hs
  refine ⟨x.apply n s, update s (.refl s), (update { s with mem := m } ⟨rfl, rfl, rfl, hbytes⟩).trans ?_⟩
  cases x <;> rfl

/-- Settles O42: TEST alone touches FLAGS, and what else it leaves does not depend on them. -/
theorem noInstructionReadsFlags : Obligations.NoInstructionReadsFlags := by
  intro s f hs
  obtain ⟨n, x, -, -, -, update⟩ := exists_update_of_step hs
  refine ⟨x.apply n s, x.apply n { s with flags := f }, update s (.refl s),
    update _ ⟨rfl, rfl, rfl, fun _ _ => rfl⟩, ?_⟩
  cases x <;> rfl

/-- Settles O43: no update reads or writes the pending commands. -/
theorem hostBlockedWhileRunning : Obligations.HostBlockedWhileRunning := by
  intro s cs hs
  obtain ⟨n, x, -, -, -, update⟩ := exists_update_of_step hs
  refine ⟨x.apply n s, update s (.refl s), x.apply_pending n s,
    (update { s with pending := cs } ⟨rfl, rfl, rfl, fun _ _ => rfl⟩).trans ?_⟩
  cases x <;> rfl

end Sys2Proof.Machine
end

section
/-! PROOFS. The host's commands (spec/70_reset_and_hazards.md, R112 to R119) as steps, and what a step of any
kind does to memory and to IP. -/

namespace Sys2Proof.Machine

open Sys2Proof.Claims

/-! ## What a command leaves (R118) -/

theorem step_of_load_fits {p : List Byte} {s : State} (ha : Accepts s (.load p)) (hp : p.length ≤ s.memSize) :
    step s = .next (deliver .loadOk (loadProgram p { s with pending := s.pending.tail })) :=
  (step_of_accepts ha).trans (congrArg Host.Outcome.next (if_pos hp))

theorem step_of_load_oversize {p : List Byte} {s : State} (ha : Accepts s (.load p))
    (hp : s.memSize < p.length) :
    step s = .next (deliver .loadTooLarge { s with pending := s.pending.tail }) :=
  (step_of_accepts ha).trans (congrArg Host.Outcome.next (if_neg (not_le.2 hp)))

theorem loadProgram_byteAt_of_lt {p : List Byte} (s : State) {k : Nat} (h : k < p.length) :
    (loadProgram p s).byteAt k = p[k] := by rw [loadProgram_byteAt, dif_pos h]

theorem loadProgram_byteAt_of_le {p : List Byte} (s : State) {a : Nat} (h : p.length ≤ a) :
    (loadProgram p s).byteAt a = s.byteAt a := by rw [loadProgram_byteAt, dif_neg (not_lt.2 h)]

theorem noFault_clear : NoFault Diag.clear := ⟨rfl, rfl, rfl, rfl⟩

/-- No command touches the queue. -/
theorem accept_pending (c : Command) (s : State) : (accept c s).pending = s.pending := by
  rcases accept_cases c s with ⟨-, e⟩ | ⟨_, -, -, e⟩ | ⟨_, -, -, e⟩ | ⟨-, e⟩ | ⟨_, -, e⟩
  all_goals simp [e]

/-- A command keeps MEM_SIZE, and every byte of memory but those a LOAD that fits writes. -/
theorem accept_memory (c : Command) (s : State) :
    (accept c s).memSize = s.memSize ∧
    ∀ a, (accept c s).byteAt a ≠ s.byteAt a → ∃ p, c = .load p ∧ a < p.length ∧ p.length ≤ s.memSize := by
  rcases accept_cases c s with ⟨-, e⟩ | ⟨p, rfl, hp, e⟩ | ⟨_, -, -, e⟩ | ⟨-, e⟩ | ⟨_, -, e⟩
  pick_goal 2 -- a LOAD that fits
  · rw [e]
    refine ⟨rfl, fun a hne => ⟨p, rfl, ?_, hp⟩⟩
    by_contra ha
    exact hne (loadProgram_byteAt_of_le s (not_lt.1 ha))
  all_goals
    rw [e]
    exact ⟨rfl, fun _ hne => absurd rfl hne⟩

/-- A command that changes IP is RESET or a LOAD that fits, and sets it to 0 (R21). -/
theorem accept_ip_cases (c : Command) (s : State) :
    (accept c s).ip = s.ip ∨ (c = .reset ∧ (accept c s).ip = 0) ∨
    (∃ p, c = .load p ∧ p.length ≤ s.memSize ∧ (accept c s).ip = 0) := by
  rcases accept_cases c s with ⟨rfl, -⟩ | ⟨p, rfl, hp, e⟩ | ⟨_, -, -, e⟩ | ⟨-, e⟩ | ⟨_, -, e⟩
  · exact .inr (.inl ⟨rfl, rfl⟩)
  · exact .inr (.inr ⟨p, rfl, hp, by rw [e]; rfl⟩)
  all_goals exact .inl (by rw [e]; rfl)

/-! ## Memory and IP over any step -/

/-- Settles O33: a step of a run keeps memory, and `accept_memory` says what a command writes. -/
theorem onlyLoadWritesMemory : Obligations.OnlyLoadWritesMemory := by
  intro s t h
  by_cases hs : s.status = .running
  · obtain ⟨hsize, hbytes⟩ := step_running_keepsMemory hs h
    exact ⟨hsize, fun a hne => absurd (hbytes a) hne⟩
  · rcases eq_or_accepts_of_step hs h with rfl | ⟨c, hc, rfl⟩
    · exact ⟨rfl, fun _ hne => absurd rfl hne⟩
    · obtain ⟨hsize, hbytes⟩ := accept_memory c { s with pending := s.pending.tail }
      refine ⟨hsize, fun a hne => ?_⟩
      obtain ⟨p, rfl, ha, hp⟩ := hbytes a hne
      exact ⟨p, hc, ha, hp⟩

/-- Settles O32: outside a run by `accept_ip_cases`; in one IP moves past the bytes fetched, of which there
are some, since IP changes. -/
theorem ipChangesThreeWays : Obligations.IpChangesThreeWays := by
  intro s t h hne
  by_cases hs : s.status = .running
  · obtain ⟨n, hn, -, hip, hin⟩ := step_running_ip hs h
    have some_fetched : n ≠ 0 := by
      rintro rfl
      exact hne (by simpa using hip)
    exact .inr (.inr ⟨hs, n, Nat.pos_of_ne_zero some_fetched, hn, hip, hin⟩)
  · rcases eq_or_accepts_of_step hs h with rfl | ⟨c, hc, rfl⟩
    · exact absurd rfl hne
    · rcases accept_ip_cases c { s with pending := s.pending.tail } with hkeep | ⟨rfl, hip⟩ | ⟨p, rfl, hp, hip⟩
      · exact absurd hkeep hne
      · exact .inl ⟨hc, hip⟩
      · exact .inr (.inl ⟨p, hc, hp, hip⟩)

/-! ## The commands as steps -/

/-- Settles O6: the step is `resetCommand`, which leaves nothing for a second RESET to change. -/
theorem resetCommandWholeState : Obligations.ResetCommandWholeState := fun _ ha =>
  ⟨_, step_of_accepts ha, fun r => resetCommand_reg _ r, rfl, rfl, rfl, rfl, rfl, noFault_clear,
    ⟨rfl, fun _ => rfl⟩, fun again => step_of_accepts again⟩

/-- Settles O44: the step is `enterRun`. -/
theorem executeEntersRun : Obligations.ExecuteEntersRun := fun _ ha =>
  ⟨_, step_of_accepts ha, rfl, noFault_clear, rfl⟩

/-- Settles O45: the step is `loadProgram`, byte by byte in `loadProgram_byteAt_of_lt` and
`loadProgram_byteAt_of_le`. -/
theorem loadWritesProgram : Obligations.LoadWritesProgram := fun _ _ ha hp =>
  ⟨_, step_of_load_fits ha hp, fun _ hk => loadProgram_byteAt_of_lt _ hk,
    fun _ => loadProgram_byteAt_of_le _, rfl⟩

/-- Settles O46: the step delivers LOAD_TOO_LARGE and does nothing else. -/
theorem oversizeLoadChangesNothing : Obligations.OversizeLoadChangesNothing := fun _ _ =>
  step_of_load_oversize

/-- Settles O47: the value is `readValue`'s, one register at a time; STATUS and DIAG.kind by their codes. -/
theorem readReturnsRegister : Obligations.ReadReturnsRegister := by
  intro s r ha
  refine ⟨readValue r s, step_of_accepts ha, ?_, ?_, ?_, ?_, ?_, ?_, ?_⟩
  · rintro k rfl; rfl
  · rintro rfl; rfl
  · rintro rfl; rfl
  · rintro rfl; rfl
  · rintro rfl; rfl
  · rintro rfl
    change ReadValue.status s.status.code = _
    cases s.status <;> rfl
  · rintro rfl
    change ReadValue.diag s.diag.kind.code s.diag.opcode s.diag.index s.diag.pos = _
    cases s.diag.kind <;> rfl

/-- Settles O48: the host's turn with an empty queue. -/
theorem idleCoreKeepsState : Obligations.IdleCoreKeepsState := by
  intro s hs hp
  rw [step_of_not_running hs, hostTurn, hp]

end Sys2Proof.Machine
end

section
/-! PROOFS. Many steps (spec/40_execute_cycle.md section 4): how `Steps` begins with one step, and the claims
over a number of steps, each by induction on that number, on the list of instructions, or on the bytes left
above IP. -/

namespace Sys2Proof.Machine

open Sys2Proof.Claims

/-! ## Steps, one at a time -/

theorem steps_zero {s t : State} : Steps 0 s t ↔ s = t :=
  ⟨Host.Outcome.next.inj, congrArg Host.Outcome.next⟩

/-- What the first step leaves is where the others begin. -/
theorem steps_succ_iff {n : Nat} {s u t : State} (h : step s = .next u) :
    Steps (n + 1) s t ↔ Steps n u t := by
  have first : core.step s = .next u := h
  simp only [Steps, Host.Core.run, first]

theorem steps_one {s t : State} (h : step s = .next t) : Steps 1 s t :=
  (steps_succ_iff h).2 (steps_zero.2 rfl)

/-- Every state has a next state (R99, R108). -/
theorem exists_step (s : State) : ∃ t, step s = .next t := by
  by_cases hs : s.status = .running
  · exact exists_step_of_running hs
  · exact ⟨_, step_of_not_running hs⟩

/-- Settles O28, by induction on the number of steps. -/
theorem machineNeverStops : Obligations.MachineNeverStops := by
  intro n
  induction n with
  | zero => exact fun s => ⟨s, steps_zero.2 rfl⟩
  | succ n ih =>
    intro s
    obtain ⟨u, hu⟩ := exists_step s
    obtain ⟨t, ht⟩ := ih u
    exact ⟨t, (steps_succ_iff hu).2 ht⟩

/-! ## FLAGS while no RESET is pending (R26) -/

/-- TEST clears no bit. -/
theorem testFlags_getLsbD_of_set {x y flags : Word} {b : Nat} (h : flags.getLsbD b = true) :
    (testFlags x y flags).getLsbD b = true := by
  rw [testFlags, BitVec.getLsbD_or, h, Bool.true_or]

/-- With no RESET pending a step keeps the bits that are set, and no RESET is pending after it. -/
theorem step_keeps_flags {s t : State} (hp : Command.reset ∉ s.pending) (h : step s = .next t) :
    Command.reset ∉ t.pending ∧ ∀ b, s.flags.getLsbD b = true → t.flags.getLsbD b = true := by
  by_cases hs : s.status = .running
  · refine ⟨step_running_pending hs h ▸ hp, fun b hb => ?_⟩
    rcases step_running_flags hs h with hkeep | ⟨_, _, _, _, -, -, -, hf⟩
    · rwa [hkeep]
    · rw [hf]
      exact testFlags_getLsbD_of_set hb
  · rcases eq_or_accepts_of_step hs h with rfl | ⟨c, ⟨-, hc⟩, rfl⟩
    · exact ⟨hp, fun _ hb => hb⟩
    · have not_reset : c ≠ .reset := by
        rintro rfl
        exact hp (List.mem_of_mem_head? hc)
      refine ⟨?_, fun b hb => ?_⟩
      · rw [accept_pending]
        exact fun hmem => hp (List.mem_of_mem_tail hmem)
      · rwa [accept_flags_of_ne_reset _ not_reset]

/-- Settles O30, by induction on the number of steps with `step_keeps_flags`. -/
theorem flagsAccumulate : Obligations.FlagsAccumulate := by
  intro n
  induction n with
  | zero =>
    intro s t _ h b hb
    obtain rfl := steps_zero.1 h
    exact hb
  | succ n ih =>
    intro s t hp h b hb
    obtain ⟨u, hu⟩ := exists_step s
    obtain ⟨hp', hflags⟩ := step_keeps_flags hp hu
    exact ih u t hp' ((steps_succ_iff hu).1 h) b (hflags b hb)

/-! ## Memory during a run (R50) -/

theorem KeepsMemory.refl (s : State) : KeepsMemory s s := ⟨rfl, fun _ => rfl⟩

theorem KeepsMemory.trans {s u t : State} (h : KeepsMemory s u) (h' : KeepsMemory u t) : KeepsMemory s t :=
  ⟨h'.1.trans h.1, fun a => (h'.2 a).trans (h.2 a)⟩

theorem KeepsMemory.holds {s t : State} (h : KeepsMemory s t) {a : Word} {bs : List Byte}
    (hh : s.holds a bs) : t.holds a bs :=
  holds_congr h.1 (fun _ _ => h.2 _) hh

/-- Settles O34, by induction on the number of steps: the first is a step of a run. -/
theorem memoryConstantDuringRun : Obligations.MemoryConstantDuringRun := by
  intro n
  induction n with
  | zero =>
    intro s t _ h
    obtain rfl := steps_zero.1 h
    exact .refl s
  | succ n ih =>
    intro s t hrun h
    have hs : s.status = .running := by
      obtain ⟨u, hu, hr⟩ := hrun 0 (Nat.succ_pos n)
      rwa [steps_zero.1 hu]
    obtain ⟨u, hu⟩ := exists_step s
    refine (step_running_keepsMemory hs hu).trans (ih u t (fun m hm => ?_) ((steps_succ_iff hu).1 h))
    obtain ⟨w, hw, hr⟩ := hrun (m + 1) (Nat.succ_lt_succ hm)
    exact ⟨w, (steps_succ_iff hu).1 hw, hr⟩

/-! ## Runs that go on (R78, R22, R89) -/

/-- IP ends past an instruction that stands at IP (R21). -/
theorem step_ip_of_holds {s t : State} {i : Instr} (hs : s.status = .running)
    (hh : s.holds s.ip (encode i)) (h : step s = .next t) :
    t.ip = s.ip + BitVec.ofNat 16 (encode i).length := by
  obtain ⟨x, -, update⟩ := exists_updateOf i
  cases ((step_of_holds hs hh).trans (update _ s hs)).symm.trans h
  exact x.apply_ip _ s

/-- Settles O38, by induction on the number of steps: a well-formed instruction other than RET keeps the run
going. -/
theorem runWithoutRetOrFaultGoesOn : Obligations.RunWithoutRetOrFaultGoesOn := by
  intro s n
  induction n generalizing s with
  | zero => exact fun hs _ => ⟨s, steps_zero.2 rfl, hs⟩
  | succ n ih =>
    intro hs path
    obtain ⟨i, hi, hw, hh⟩ := path 0 s (Nat.succ_pos n) (steps_zero.2 rfl)
    obtain ⟨u, hu⟩ := exists_step s
    obtain ⟨t, ht, hr⟩ := ih u (step_running_of_wellFormed hs hi hw hh hu) fun m w hm hwm =>
      path (m + 1) w (Nat.succ_lt_succ hm) ((steps_succ_iff hu).2 hwm)
    exact ⟨t, (steps_succ_iff hu).2 ht, hr⟩

/-- Settles O39, by induction on the list of instructions: the first runs in one step, which leaves IP at
the others and them in memory. -/
theorem straightLineRun : Obligations.StraightLineRun := by
  intro is
  induction is with
  | nil => exact fun s hs _ _ => ⟨s, steps_zero.2 rfl, hs, by simp, .refl s, rfl, rfl⟩
  | cons i is ih =>
    intro s hs hgood hbytes
    obtain ⟨⟨hi, hw⟩, hgood'⟩ := List.forall_mem_cons.1 hgood
    obtain ⟨hh, hrest⟩ := holds_append.1 (List.flatMap_cons ▸ hbytes)
    obtain ⟨u, hu⟩ := exists_step s
    have hip := step_ip_of_holds hs hh hu
    have hmem := step_running_keepsMemory hs hu
    obtain ⟨hsp, hbp⟩ := step_running_keepsStackRegs hs hu
    obtain ⟨t, ht, hr, hip', hmem', hsp', hbp'⟩ :=
      ih u (step_running_of_wellFormed hs hi hw hh hu) hgood' (hip ▸ hmem.holds hrest)
    refine ⟨t, (steps_succ_iff hu).2 ht, hr, ?_, hmem.trans hmem', hsp'.trans hsp, hbp'.trans hbp⟩
    rw [hip', hip, List.flatMap_cons, List.length_append, BitVec.ofNat_add, BitVec.add_assoc]

/-! ## Runs end (R77) -/

/-- In a memory of at most 65535 bytes fetches inside memory never wrap IP. -/
theorem ip_add_toNat {s : State} (hsize : s.memSize ≤ 65535) {n : Nat}
    (hin : ∀ k, k < n → s.inMemory (s.ip + BitVec.ofNat 16 k)) :
    (s.ip + BitVec.ofNat 16 n).toNat = s.ip.toNat + n := by
  induction n with
  | zero => simp
  | succ n ih =>
    have before := ih fun k hk => hin k (Nat.lt_succ_of_lt hk)
    have last_inside := hin n (Nat.lt_succ_self n)
    simp only [State.inMemory] at last_inside
    simp only [BitVec.toNat_add, BitVec.toNat_ofNat] at *
    omega

/-- Settles O37, by induction on the bytes from IP to the end of memory: a step that does not end the run
leaves fewer of them. -/
theorem runsTerminate : Obligations.RunsTerminate := by
  intro s
  induction hleft : s.memSize - s.ip.toNat using Nat.strong_induction_on generalizing s with
  | _ left ih =>
    intro hs hsize hip
    obtain ⟨u, hu⟩ := exists_step s
    rcases step_running_status_cases hs hu with ⟨halted, -⟩ | ⟨running, -⟩ | faulted
    · exact ⟨1, u, Nat.succ_le_succ (Nat.zero_le _), steps_one hu, .inl halted⟩
    · obtain ⟨n, -, hpos, hip', hin⟩ := step_running_ip hs hu
      obtain ⟨hsize', -⟩ := step_running_keepsMemory hs hu
      have fetched := hpos running
      have moved : u.ip.toNat = s.ip.toNat + n := by rw [hip', ip_add_toNat hsize hin]
      have inside : u.ip.toNat ≤ s.memSize := by
        rw [hip']
        exact ip_le_of_fetched (by simp only [Config.maxMemSize]; omega) hip hin
      obtain ⟨m, t, hm, ht, hended⟩ :=
        ih (u.memSize - u.ip.toNat) (by omega) u rfl running (by omega) (by omega)
      exact ⟨m + 1, t, by omega, (steps_succ_iff hu).2 ht, hended⟩
    · exact ⟨1, u, Nat.succ_le_succ (Nat.zero_le _), steps_one hu, .inr faulted⟩

/-! ## Short programs (R81 to R83) -/

/-- One register–immediate instruction of a program: its effect, and the rest of the program at IP. -/
theorem IsRegImm.exists_step {op : Byte} {mk : Byte → Word → Instr} {alu : Word → Word → Word}
    (format : IsRegImm op mk alu) {s : State} {r : Byte} {k : GReg} {imm : Word} {rest : List Byte}
    (hs : s.status = .running) (hk : regOfByte r = some k)
    (hbytes : s.holds s.ip (Sys2Proof.encode (mk r imm) ++ rest)) :
    ∃ t, step s = .next t ∧ t.status = .running ∧ t.holds t.ip rest ∧
      t.regs = s.regs.set k (alu (s.reg k) imm) := by
  obtain ⟨hh, hrest⟩ := holds_append.1 hbytes
  rw [format.encode] at hrest
  have keeps : KeepsMemory s (writeReg k (alu (s.reg k) imm) (Machine.advance 4 s)) := ⟨rfl, fun _ => rfl⟩
  refine ⟨writeReg k (alu (s.reg k) imm) (Machine.advance 4 s), ?_, hs, keeps.holds hrest, rfl⟩
  rw [step_of_holds hs hh, format.exec_of_some hk, format.encode]
  exact completeExecute_running hs

/-- RET ends the program and keeps the registers. -/
theorem exists_steps_ret {s : State} (hs : s.status = .running) (hh : s.holds s.ip (encode .ret)) :
    ∃ t, Steps 1 s t ∧ t.status = .halted ∧ t.regs = s.regs := by
  obtain ⟨hin, hop, -⟩ := hh
  exact ⟨_, steps_one (step_of_ret ⟨hs, hin, hop⟩), rfl, rfl⟩

/-- MOV_IMM 0 a, then an instruction on register 0 and `b`, then RET, leaves in AX what the ALU makes of `a`
and `b`. -/
theorem IsRegImm.exists_steps_after_movImm {op : Byte} {mk : Byte → Word → Instr}
    {alu : Word → Word → Word} (format : IsRegImm op mk alu) {s : State} {a b : Word}
    (hs : s.status = .running)
    (hbytes : s.holds s.ip
      (Sys2Proof.encode (.movImm 0 a) ++ Sys2Proof.encode (mk 0 b) ++ Sys2Proof.encode .ret)) :
    ∃ t, Steps 3 s t ∧ t.status = .halted ∧ t.reg .ax = alu a b := by
  rw [List.append_assoc] at hbytes
  obtain ⟨u, hu, hur, hrest, hregs⟩ := isRegImm_movImm.exists_step hs (k := .ax) rfl hbytes
  obtain ⟨v, hv, hvr, hret, hregs'⟩ := format.exists_step hur (k := .ax) rfl hrest
  obtain ⟨t, ht, halted, hregs''⟩ := exists_steps_ret hvr hret
  refine ⟨t, (steps_succ_iff hu).2 ((steps_succ_iff hv).2 ht), halted, ?_⟩
  have loaded : u.reg .ax = a := by rw [State.reg, hregs, RegFile.get_set_self, aluPass]
  rw [State.reg, hregs'', hregs', RegFile.get_set_self, loaded]

/-- Settles O40: MOV_IMM and RET, and the two programs of `IsRegImm.exists_steps_after_movImm` with what ADD
and SUB compute. -/
theorem sourcePropertiesHold : Obligations.SourcePropertiesHold := by
  intro s hs
  refine ⟨fun r k imm hk hbytes => ?movImm, fun a b hbytes => ?add, fun a b hbytes => ?sub⟩
  case movImm =>
    obtain ⟨u, hu, hur, hret, hregs⟩ := isRegImm_movImm.exists_step hs hk hbytes
    obtain ⟨t, ht, halted, hregs'⟩ := exists_steps_ret hur hret
    refine ⟨t, (steps_succ_iff hu).2 ht, halted, ?_, fun j hj => ?_⟩
    · rw [State.reg, hregs', hregs, RegFile.get_set_self, aluPass]
    · rw [State.reg, hregs', hregs, RegFile.get_set_ne _ _ hj, State.reg]
  case add =>
    obtain ⟨t, ht, halted, hax⟩ := isRegImm_add.exists_steps_after_movImm hs hbytes
    exact ⟨t, ht, halted, by rw [hax, aluAdd_toNat]⟩
  case sub =>
    obtain ⟨t, ht, halted, hax⟩ := isRegImm_sub.exists_steps_after_movImm hs hbytes
    exact ⟨t, ht, halted, by rw [hax, aluSub_toNat]⟩

/-! ## The host's sequences (R80, R121) -/

/-- Settles O50: EXECUTE enters the run, whose first fetch is outside memory. -/
theorem executeAfterMemoryFaultFaultsAgain : Obligations.ExecuteAfterMemoryFaultFaultsAgain := by
  intro s ha hout
  have entered := step_of_accepts ha
  have faulted := step_of_raise (s := enterRun { s with pending := s.pending.tail }) rfl
    (instructionCycle_of_opcode_outside hout)
  rw [advance_zero] at faulted
  exact ⟨_, (steps_succ_iff entered).2 (steps_one faulted), rfl, rfl, rfl, rfl, rfl, ⟨rfl, rfl⟩,
    ⟨rfl, fun _ => rfl⟩⟩

/-- Settles O51: RESET gives the registers, the LOAD that follows the memory. -/
theorem cleanLaunchState : Obligations.CleanLaunchState := by
  intro s p cs hs hp hfits
  have resets : Accepts s .reset := ⟨hs, by rw [hp]; rfl⟩
  have loads : Accepts (resetCommand { s with pending := s.pending.tail }) (.load p) :=
    ⟨nofun, by rw [resetCommand_pending, hp]; rfl⟩
  have queue : s.pending.tail.tail = cs := by rw [hp]; rfl
  exact ⟨_, (steps_succ_iff (step_of_accepts resets)).2 (steps_one (step_of_load_fits loads hfits)),
    fun _ hk => loadProgram_byteAt_of_lt _ hk, fun _ => loadProgram_byteAt_of_le _,
    resetCommand_reg { s with pending := s.pending.tail }, rfl, rfl, rfl, rfl, rfl, noFault_clear, rfl, queue⟩

end Sys2Proof.Machine
end
